-- ==== Sys2Proof/Word.lean ====
section
/-! DEFINITION. The word and byte types of the PixelCraft Filter Core (PFC), and the small closed sets of
names that command words and STATUS carry (00_scope.md R7, R8; 30_encoding.md R104, R105; 60_exceptions.md R301). -/

namespace Sys2Proof

/-- Every CSR, command word and pixel word is 32 bits wide (R7, R8). -/
abbrev Word := BitVec 32

/-- One channel of a pixel, and one byte lane of a pixel word (R7, R48). -/
abbrev Byte := BitVec 8

/-- The SOBEL grayscale formula that the field GM selects (R104). GM = 3 is reserved and has no constructor:
the decoder rejects it. -/
inductive GrayMode where
  /-- GM = 0: exact luminance, scaled by 10000. -/
  | lum
  /-- GM = 1: `(r+g+b) div 3`. -/
  | mean
  /-- GM = 2: luminance truncated to an integer. -/
  | lumt
deriving DecidableEq, Repr

/-- The SOBEL border policy that the field BZ selects (R105). -/
inductive BorderMode where
  /-- BZ = 0: a border pixel is copied from SRC. -/
  | copy
  /-- BZ = 1: a border pixel is written 0x00000000. -/
  | zero
deriving DecidableEq, Repr

/-- The four reasons a command word is rejected (R301), in the order of their priority (R302). -/
inductive ErrCode where
  /-- ERR_OPC, code 1: the opcode is reserved. -/
  | opc
  /-- ERR_RSVD, code 2: a reserved bit is set, or SOBEL has GM = 3. -/
  | rsvd
  /-- ERR_RANGE, code 3: a buffer extends past pixel memory. -/
  | range
  /-- ERR_OVERLAP, code 4: buffers alias illegally. -/
  | overlap
deriving DecidableEq, Repr

end Sys2Proof
end

