-- ==== Sys2Proof/Syntax.lean ====
section
/-! DEFINITION. The commands of the PFC, one constructor for each row of spec/opcode_table.json
(30_encoding.md R102). -/

namespace Sys2Proof

/-- A command. Its operands are the fields of the command word; the registers it reads are implicit (R106).
`param` is the PARAM field as a number (R103; DESIGN CHOICE, log entry 14): 0 selects the default of the opcode. -/
inductive Instr where
  /-- OP = 0x1: pack PK_A, PK_R, PK_G, PK_B into PK_OUT (R153). -/
  | pack
  /-- OP = 0x2: unpack UP_IN into UP_A, UP_R, UP_G, UP_B (R154). -/
  | unpack
  /-- OP = 0x3: 5×5 box blur, SRC to DST (R203). -/
  | blur5
  /-- OP = 0x4: 3×3 box blur, SRC to DST (R204). -/
  | blur3
  /-- OP = 0x5: Sobel gradient magnitude, SRC to DST (R226). -/
  | sobel (gm : GrayMode) (bz : BorderMode)
  /-- OP = 0x6: block-average quantization, SRC to DST (R282). -/
  | pixelate (param : Nat)
  /-- OP = 0x7: recursive compounding 3×3 blur into DST, with scratch SCR (R252). -/
  | rblur (param : Nat)
  /-- OP = 0x8: recursive block invert, SRC to DST (R255). -/
  | rinvert (param : Nat)
deriving DecidableEq, Repr

end Sys2Proof
end

