-- ==== Sys2Proof/WellFormed.lean ====
section
/-! DEFINITION. Which commands an encoding exists for: PARAM is an unsigned 8-bit immediate (30_encoding.md R100, R103).
The other fields are finite types whose every value has an encoding. -/

namespace Sys2Proof

/-- A PARAM value fits its 8-bit field (R103). -/
def paramFits (param : Nat) : Bool := decide (param ≤ 255)

/-- The command has an encoding. -/
def Instr.wellFormed : Instr → Bool
  | .pack => true
  | .unpack => true
  | .blur5 => true
  | .blur3 => true
  | .sobel _ _ => true
  | .pixelate param => paramFits param
  | .rblur param => paramFits param
  | .rinvert param => paramFits param

end Sys2Proof
end

