-- ==== Sys2Proof/Decode.lean ====
section
/-! DEFINITION. The command decoder, total on every 32-bit word and rejecting by error code (30_encoding.md R107), and the
encoder, both written from the field layout of R100 and the opcode map of R102. -/

namespace Sys2Proof

/-- OP, bits [3:0] (R100). -/
def opField (c : Word) : BitVec 4 := c.extractLsb' 0 4
/-- GM, bits [5:4] (R100). -/
def gmField (c : Word) : BitVec 2 := c.extractLsb' 4 2
/-- BZ, bit [6] (R100). -/
def bzField (c : Word) : BitVec 1 := c.extractLsb' 6 1
/-- RSV0, bit [7], must be 0 (R100). -/
def rsv0Field (c : Word) : BitVec 1 := c.extractLsb' 7 1
/-- PARAM, bits [15:8] (R100). -/
def paramField (c : Word) : BitVec 8 := c.extractLsb' 8 8
/-- RSV1, bits [31:16], must be 0 (R100). -/
def rsv1Field (c : Word) : BitVec 16 := c.extractLsb' 16 16

/-- The reserved bits of every opcode, c[31:16] and c[7], are 0 (R107 case 2). -/
def rsvClear (c : Word) : Bool := rsv1Field c == 0 && rsv0Field c == 0
/-- c[15:8] is 0, as every opcode without PARAM requires (R107 case 2). -/
def paramClear (c : Word) : Bool := paramField c == 0
/-- c[6:4] is 0, as every opcode but SOBEL requires (R107 case 2). -/
def modeClear (c : Word) : Bool := bzField c == 0 && gmField c == 0

/-- The grayscale mode of a GM field; GM = 3 is reserved (R104). -/
def GrayMode.ofField (gm : BitVec 2) : Option GrayMode :=
  match gm.toNat with
  | 0 => some .lum
  | 1 => some .mean
  | 2 => some .lumt
  | _ => none

/-- The GM field of a grayscale mode (R104). -/
def GrayMode.field : GrayMode → BitVec 2
  | .lum => 0
  | .mean => 1
  | .lumt => 2

/-- The border policy of a BZ field (R105). -/
def BorderMode.ofField (bz : BitVec 1) : BorderMode := if bz == 0 then .copy else .zero

/-- The BZ field of a border policy (R105). -/
def BorderMode.field : BorderMode → BitVec 1
  | .copy => 0
  | .zero => 1

/-- A command word of an opcode that uses no field. -/
def decodePlain (c : Word) (i : Instr) : Except ErrCode Instr :=
  if rsvClear c && paramClear c && modeClear c then .ok i else .error .rsvd

/-- A SOBEL command word: fields GM and BZ. -/
def decodeSobel (c : Word) : Except ErrCode Instr :=
  if rsvClear c && paramClear c then
    match GrayMode.ofField (gmField c) with
    | some gm => .ok (.sobel gm (BorderMode.ofField (bzField c)))
    | none => .error .rsvd
  else .error .rsvd

/-- A command word of an opcode that uses PARAM, zero-extended (R103). -/
def decodeParam (c : Word) (mk : Nat → Instr) : Except ErrCode Instr :=
  if rsvClear c && modeClear c then .ok (mk (paramField c).toNat) else .error .rsvd

/-- The command a word stands for, or the error code it is rejected with: ERR_OPC for a reserved opcode, then
ERR_RSVD for a reserved bit or GM = 3 (R102, R107). -/
def decode (c : Word) : Except ErrCode Instr :=
  match (opField c).toNat with
  | 0x1 => decodePlain c .pack
  | 0x2 => decodePlain c .unpack
  | 0x3 => decodePlain c .blur5
  | 0x4 => decodePlain c .blur3
  | 0x5 => decodeSobel c
  | 0x6 => decodeParam c .pixelate
  | 0x7 => decodeParam c .rblur
  | 0x8 => decodeParam c .rinvert
  | _ => .error .opc

/-- The command word with the given fields and both reserved fields 0 (R100):
`RRRRRRRRRRRRRRRR PPPPPPPP r b gg oooo`. -/
def commandWord (param : BitVec 8) (bz : BitVec 1) (gm : BitVec 2) (op : BitVec 4) : Word :=
  0#16 ++ param ++ 0#1 ++ bz ++ gm ++ op

/-- The command word of a command (R102 to R105), for a well-formed one. -/
def encode : Instr → Word
  | .pack => commandWord 0 0 0 0x1
  | .unpack => commandWord 0 0 0 0x2
  | .blur5 => commandWord 0 0 0 0x3
  | .blur3 => commandWord 0 0 0 0x4
  | .sobel gm bz => commandWord 0 bz.field gm.field 0x5
  | .pixelate param => commandWord (BitVec.ofNat 8 param) 0 0 0x6
  | .rblur param => commandWord (BitVec.ofNat 8 param) 0 0 0x7
  | .rinvert param => commandWord (BitVec.ofNat 8 param) 0 0 0x8

/-- The command word whose `nbits` low bits are those of `w` and whose other bits are 0, bits numbered as
spec/opcode_table.json numbers them. A command is exactly one 32-bit word (R101). -/
def tableWord (nbits w : Nat) : Word := BitVec.ofNat 32 (w % 2 ^ nbits)

/-- What the decoder reads from the command word with those bits. -/
def decodeTableWord (nbits w : Nat) : Option Instr := (decode (tableWord nbits w)).toOption

end Sys2Proof
end

