-- ==== Sys2Proof/Config.lean ====
section
/-! DEFINITION. What an implementation of the PFC fixes (ADDR_W, the system addresses of its ports) and the values
the spec leaves unspecified (the draws of 00_scope.md R10 and 93_implementation_defined.md U1 to U4). -/

namespace Sys2Proof

/-- The implementation parameter ADDR_W, an integer from 1 to 30: the width of a pixel-memory word address (R7). -/
structure AddrW where
  val : Nat
  one_le : 1 ≤ val
  le_thirty : val ≤ 30
deriving DecidableEq, Repr

/-- PMEM_WORDS = 2^ADDR_W, the number of words of pixel memory (R7, R41). -/
def AddrW.words (a : AddrW) : Nat := 2 ^ a.val

/-- The ADDR_W of the machine after `State.reset`: 8, the value the programs of 95_test_vectors.md §3 assume.
DESIGN CHOICE (log entry 1): no statement rests on it, since ADDR_W is a field of the state that no step changes. -/
def Config.resetAddrW : AddrW := ⟨8, by decide, by decide⟩

/-- The value of PMEM word `wa` at power-on: a free value for each word (R341, U3). -/
opaque Config.powerOnWord (wa : Nat) : Word

/-- The `n`-th draw `draw32()` since power-on: a free 32-bit value (R10; U1, U2, U4). -/
opaque Config.freeWord (n : Nat) : Word

/-- CSR_SYS_BASE: where the CSR port sits in a system's address map, an open parameter (R51, U11). -/
opaque Config.csrSysBase : Nat

/-- PMEM_SYS_BASE: where the PMEM port sits in a system's address map, an open parameter (R51, U11). -/
opaque Config.pmemSysBase : Nat

end Sys2Proof
end

