-- ==== Sys2Proof/Machine/State.lean ====
section
/-! DEFINITION. The state of the PFC (10_state.md R20 to R38, 20_memory.md R41), the host transactions and other events that
reach it (R46, R53, R340), the reasons a step can stop, and the state at power-on. -/

namespace Sys2Proof.Machine

/-- Pixel memory as the byte cells that have been written, addresses strictly rising. Byte address `4·wa + k` is byte
lane `k` of PMEM word `wa` (R48). An address that is not listed has not been written since power-on. -/
abbrev Memory := List Host.Cell

/-- The canonical form of a memory whose addresses are all at least `lo`: strictly rising. -/
def Memory.wfFrom (lo : Nat) : Memory → Bool
  | [] => true
  | c :: rest => decide (lo ≤ c.1) && Memory.wfFrom (c.1 + 1) rest

/-- The canonical form: addresses strictly rising. No entry can equal what an unlisted address reads as, since an
unlisted address holds no written value (log entry 3). -/
def Memory.wf (m : Memory) : Bool := Memory.wfFrom 0 m

/-- The command the engine is executing, with the operands it latched when it accepted the command (R37, R162).
`instr` is the latched command word in decoded form. -/
structure Latched where
  instr : Instr
  w : BitVec 16
  h : BitVec 16
  src : Word
  dst : Word
  scr : Word
  pkA : Word
  pkR : Word
  pkG : Word
  pkB : Word
  upIn : Word
deriving DecidableEq, Repr

/-- A host transaction (R46): a read or write of a CSR at a 12-bit byte offset, or of a PMEM word. The PMEM port
carries the low ADDR_W bits of `wa` (R40, R49; log entry 6). -/
inductive Txn where
  | csrRead (offset : BitVec 12)
  | csrWrite (offset : BitVec 12) (value : Word)
  | pmemRead (wa : Word)
  | pmemWrite (wa : Word) (value : Word)
deriving DecidableEq, Repr

/-- What a port answers to a transaction: an error flag (R49), and the data of a read. -/
structure Response where
  error : Bool
  data : Option Word
deriving DecidableEq, Repr

/-- One event of the total order of R53: a host transaction, a turn given to the engine (in which it completes the
command it is executing, R165), or the reset input (R340). -/
inductive Event where
  | host (t : Txn)
  | engine
  | reset
deriving DecidableEq, Repr

/-- The state of the PFC. STATUS.BUSY has its one home in `engine`: BUSY is 1 exactly while a command is latched (R21, R27).
ID is a constant and has no storage (R24); `irq` is a function of the state (R38). -/
structure State where
  /-- ADDR_W: configuration, carried here so that every statement holds for each of its values (R7, R38; log entry 1). -/
  addrW : AddrW
  /-- CMD (R25, R26). -/
  cmd : Word
  /-- STATUS.DONE (R27). -/
  done : Bool
  /-- STATUS.ERR (R27). -/
  err : Bool
  /-- STATUS.ACCERR (R27). -/
  accErr : Bool
  /-- STATUS.ECODE (R27, R301). -/
  ecode : BitVec 4
  /-- CTRL.IE (R28). -/
  ie : Bool
  /-- WIDTH[15:0] (R29). -/
  width : BitVec 16
  /-- HEIGHT[15:0] (R29). -/
  height : BitVec 16
  /-- SRC_BASE (R30). -/
  srcBase : Word
  /-- DST_BASE (R30). -/
  dstBase : Word
  /-- SCR_BASE (R30). -/
  scrBase : Word
  /-- PK_A (R32). -/
  pkA : Word
  /-- PK_R (R32). -/
  pkR : Word
  /-- PK_G (R32). -/
  pkG : Word
  /-- PK_B (R32). -/
  pkB : Word
  /-- PK_OUT (R33). -/
  pkOut : Word
  /-- UP_IN (R34). -/
  upIn : Word
  /-- UP_A[7:0]; bits [31:8] are 0 (R35). -/
  upA : Byte
  /-- UP_R[7:0] (R35). -/
  upR : Byte
  /-- UP_G[7:0] (R35). -/
  upG : Byte
  /-- UP_B[7:0] (R35). -/
  upB : Byte
  /-- Pixel memory (R41). -/
  pmem : Memory
  /-- The engine: IDLE (`none`) or BUSY with the command it latched (R21, R37, R162). -/
  engine : Option Latched
  /-- What the ports answered to the last host transaction; the model's own record of the port outputs (log entry 5). -/
  response : Option Response
  /-- The events still to come, first one first: the model's own form of the total order of R53 (log entry 4). -/
  events : List Event
  /-- How many draws have been taken from `Config.freeWord`; the model's own counter (log entry 2). -/
  draws : Nat
deriving DecidableEq, Repr

/-- The reasons a step stops with a fault. -/
inductive Fault where
  /-- Raised by `runCommand`: the latched buffers extend past PMEM, so the engine would access a word that does not
  exist (R43, R44). Safe: validation keeps it from every state a run reaches (R161, R167, R303). -/
  | pmemAddress
deriving DecidableEq, Repr

/-- The reasons a step is refused. -/
inductive Refusal where
  /-- Raised by `exec` for an instruction that has no meaning in the model. Safe. No arm of `exec` raises it. -/
  | notModelled (mnemonic : String)
deriving DecidableEq, Repr

/-- The machine right after power-on and reset, for an ADDR_W: every CSR 0 but ID (R340), the engine IDLE (R344), no
PMEM word written, so that each holds its free power-on value (R341). -/
def State.powerOn (addrW : AddrW) : State where
  addrW := addrW
  cmd := 0
  done := false
  err := false
  accErr := false
  ecode := 0
  ie := false
  width := 0
  height := 0
  srcBase := 0
  dstBase := 0
  scrBase := 0
  pkA := 0
  pkR := 0
  pkG := 0
  pkB := 0
  pkOut := 0
  upIn := 0
  upA := 0
  upR := 0
  upG := 0
  upB := 0
  pmem := []
  engine := none
  response := none
  events := []
  draws := 0

/-- The machine right after reset (R340, R341, R344). -/
def State.reset : State := State.powerOn Config.resetAddrW

/-- STATUS.BUSY: the engine is executing an accepted command (R27). -/
def State.busy (s : State) : Bool := s.engine.isSome

end Sys2Proof.Machine
end

