-- ==== Sys2Proof/Machine/Flags.lean ====
section
/-! DEFINITION. STATUS, its write-1-to-clear rule, the error codes it reports and the interrupt output (10_state.md R27,
60_exceptions.md R301, R310). -/

namespace Sys2Proof.Machine

/-- The number of an error code (R301). -/
def errorNumber : ErrCode → BitVec 4
  | .opc => 1
  | .rsvd => 2
  | .range => 3
  | .overlap => 4

/-- STATUS as a read returns it (R27): `{0[31:8], ECODE[7:4], ACCERR[3], ERR[2], DONE[1], BUSY[0]}`. -/
def statusWord (s : State) : Word :=
  0#24 ++ s.ecode ++ BitVec.ofBool s.accErr ++ BitVec.ofBool s.err ++ BitVec.ofBool s.done ++ BitVec.ofBool s.busy

/-- A host write of `v` to STATUS (R27): v[1] clears DONE, v[2] clears ERR and sets ECODE to 0, v[3] clears ACCERR; no
other bit has an effect. This is the only acknowledgement of a completion or an error (R314). -/
def writeStatus (v : Word) (s : State) : State :=
  { s with
    done := s.done && !v.getLsbD 1
    err := s.err && !v.getLsbD 2
    ecode := if v.getLsbD 2 then 0 else s.ecode
    accErr := s.accErr && !v.getLsbD 3 }

/-- The interrupt output: `irq = CTRL.IE AND STATUS.DONE` at every instant (R310). -/
def irq (s : State) : Bool := s.ie && s.done

end Sys2Proof.Machine
end

