-- ==== Sys2Proof/Machine/Ops.lean ====
section
/-! DEFINITION. The shared operations: pixel memory and its words, the channels of a pixel, image buffers and regions, draws,
and what happens to a command as a whole: rejection (the PFC's one error report, 60_exceptions.md R300), acceptance and
completion (41_filter_contract.md R162, R163, R165). -/

namespace Sys2Proof.Machine

/-! Pixel memory -/

/-- Byte lane `k` of a word: bits [8k+7 : 8k] (R48). -/
def lane (v : Word) (k : Nat) : Byte := v.extractLsb' (8 * k) 8

/-- The byte written to an address, if it has been written since power-on. -/
def Memory.find : Memory → Nat → Option Byte
  | [], _ => none
  | c :: rest, a => if c.1 = a then some c.2 else Memory.find rest a

/-- Write one byte, keeping the canonical form. -/
def Memory.put : Memory → Nat → Byte → Memory
  | [], a, v => [(a, v)]
  | c :: rest, a, v =>
    if c.1 < a then c :: Memory.put rest a v
    else if c.1 = a then (a, v) :: rest
    else (a, v) :: c :: rest

/-- What an address that has not been written reads as: its lane of the free power-on value of its word (R341). -/
def unlistedByte (a : Nat) : Byte := lane (Config.powerOnWord (a / 4)) (a % 4)

/-- The byte at an address. -/
def readByte (m : Memory) (a : Nat) : Byte := (m.find a).getD (unlistedByte a)

/-- `MemRead(wa, 4)`: the PMEM word `wa` (R43), its byte lanes at addresses 4·wa to 4·wa + 3 (R48). -/
def readWord (m : Memory) (wa : Nat) : Word :=
  readByte m (4 * wa + 3) ++ readByte m (4 * wa + 2) ++ readByte m (4 * wa + 1) ++ readByte m (4 * wa)

/-- `MemWrite(wa, 4, v)`: replace the whole PMEM word `wa` (R44). -/
def writeWord (m : Memory) (wa : Nat) (v : Word) : Memory :=
  (((m.put (4 * wa) (lane v 0)).put (4 * wa + 1) (lane v 1)).put (4 * wa + 2) (lane v 2)).put (4 * wa + 3) (lane v 3)

/-! Channels of a pixel -/

/-- Alpha, `p[31:24]` (R150). -/
def chA (p : Word) : Byte := p.extractLsb' 24 8
/-- Red, `p[23:16]` (R150). -/
def chR (p : Word) : Byte := p.extractLsb' 16 8
/-- Green, `p[15:8]` (R150). -/
def chG (p : Word) : Byte := p.extractLsb' 8 8
/-- Blue, `p[7:0]` (R150). -/
def chB (p : Word) : Byte := p.extractLsb' 0 8

/-- `argb(a, r, g, b) = a<<24 | r<<16 | g<<8 | b` for channels in 0..255 (R151). -/
def argb (a r g b : Byte) : Word := a ++ r ++ g ++ b

/-- The integer truncated mean of some channel values; it is in 0..255 when `n` is their number (R201, R281). -/
def meanByte (sum n : Nat) : Byte := BitVec.ofNat 8 (sum / n)

/-! Image buffers and regions -/

/-- An image buffer: its base word address and its dimensions (R45). -/
structure Image where
  base : Nat
  w : Nat
  h : Nat
deriving DecidableEq, Repr

/-- The number of words of the buffer, W·H (R45). -/
def Image.size (i : Image) : Nat := i.w * i.h

/-- The word address of the pixel at column `x`, row `y`: `base + y·W + x` (R45). -/
def Image.addr (i : Image) (x y : Nat) : Nat := i.base + y * i.w + x

/-- `Pix(B, x, y)` (R10). -/
def Image.pix (i : Image) (m : Memory) (x y : Nat) : Word := readWord m (i.addr x y)

/-- `SetPix(B, x, y, v)` (R10). -/
def Image.setPix (i : Image) (x y : Nat) (v : Word) (m : Memory) : Memory := writeWord m (i.addr x y) v

/-- The buffer lies inside a pixel memory of `words` words: `base + W·H ≤ PMEM_WORDS` (R167). -/
def Image.fits (i : Image) (words : Nat) : Bool := decide (i.base + i.size ≤ words)

/-- The two extents share at least one word; a zero-area extent overlaps nothing (R168). -/
def Image.overlaps (i k : Image) : Bool :=
  decide (0 < i.size ∧ 0 < k.size ∧ i.base < k.base + k.size ∧ k.base < i.base + i.size)

/-- A rectangle of pixels (R12). -/
structure Region where
  x0 : Nat
  y0 : Nat
  w : Nat
  h : Nat
deriving DecidableEq, Repr

/-- The whole image as a region (R251). -/
def Image.region (i : Image) : Region := ⟨0, 0, i.w, i.h⟩

/-- The pixels of a region, row-major: y ascending outside, x ascending inside (R12). -/
def Region.pixels (r : Region) : List (Nat × Nat) :=
  (List.range r.h).flatMap fun j => (List.range r.w).map fun i => (r.x0 + i, r.y0 + j)

/-- Do `f x y` for each pixel of a list, in order. -/
def forPixels (ps : List (Nat × Nat)) (f : Nat → Nat → Memory → Memory) (m : Memory) : Memory :=
  ps.foldl (fun m p => f p.1 p.2 m) m

/-! Draws -/

/-- Write draws number `d`, `d + 1`, … to `n` words from word address `base` on (DESIGN CHOICE, log entry 17). -/
def scramble (base n d : Nat) (m : Memory) : Memory :=
  (List.range n).foldl (fun m i => writeWord m (base + i) (Config.freeWord (d + i))) m

/-! A command as a whole -/

/-- `raise CmdError(code)`: the command is rejected (R163, R300). DONE and ERR are set and ECODE holds the code; nothing
else changes. CMD was written by the transaction that issued the command (R26). -/
def reject (e : ErrCode) (s : State) : State :=
  { s with done := true, err := true, ecode := errorNumber e }

/-- The operands a command accepted now would latch (R162; DEDUCED, log entry 9: all of them, for every command). -/
def latch (i : Instr) (s : State) : Latched where
  instr := i
  w := s.width
  h := s.height
  src := s.srcBase
  dst := s.dstBase
  scr := s.scrBase
  pkA := s.pkA
  pkR := s.pkR
  pkG := s.pkG
  pkB := s.pkB
  upIn := s.upIn

/-- Acceptance: the engine latches the operands and BUSY becomes 1; DONE, ERR, ECODE and ACCERR stay (R162). -/
def accept (i : Instr) (s : State) : State := { s with engine := some (latch i s) }

/-- Completion: BUSY becomes 0 and DONE 1 in one step; ERR and ECODE stay (R165). -/
def complete (s : State) : State := { s with engine := none, done := true }

/-- The PMEM word address that the PMEM port takes from `wa`: its low ADDR_W bits (R40, R49). -/
def pmemIndex (s : State) (wa : Word) : Nat := wa.toNat % s.addrW.words

end Sys2Proof.Machine
end

