-- ==== Sys2Proof/Machine/Operands.lean ====
section
/-! DEFINITION. The operands of a command: the effective value of PARAM (30_encoding.md R103), the image buffers it reads and
writes, and the checks on them at validation (41_filter_contract.md R161, R167, R168). -/

namespace Sys2Proof.Machine

/-- The effective value of PARAM: `(PARAM == 0) ? default : PARAM` (R103). -/
def effective (dflt param : Nat) : Nat := if param = 0 then dflt else param

/-- PIXELATE's block size S, default 10 (R103). -/
def blockSize (param : Nat) : Nat := effective 10 param
/-- RBLUR's threshold T, default 2 (R103). -/
def blurThreshold (param : Nat) : Nat := effective 2 param
/-- RINVERT's threshold T, default 16 (R103). -/
def invertThreshold (param : Nat) : Nat := effective 16 param

/-- The SRC buffer (R45). -/
def Latched.srcImage (j : Latched) : Image := ⟨j.src.toNat, j.w.toNat, j.h.toNat⟩
/-- The DST buffer (R45). -/
def Latched.dstImage (j : Latched) : Image := ⟨j.dst.toNat, j.w.toNat, j.h.toNat⟩
/-- The SCR buffer (R45). -/
def Latched.scrImage (j : Latched) : Image := ⟨j.scr.toNat, j.w.toNat, j.h.toNat⟩

/-- The buffers a command uses, in the order SRC, DST, SCR (R167, R302). -/
def buffers (i : Instr) (j : Latched) : List Image :=
  match i with
  | .pack => []
  | .unpack => []
  | .blur5 => [j.srcImage, j.dstImage]
  | .blur3 => [j.srcImage, j.dstImage]
  | .sobel _ _ => [j.srcImage, j.dstImage]
  | .pixelate _ => [j.srcImage, j.dstImage]
  | .rblur _ => [j.srcImage, j.dstImage, j.scrImage]
  | .rinvert _ => [j.srcImage, j.dstImage]

/-- The buffers a command writes (R55, R167). -/
def writtenBuffers (i : Instr) (j : Latched) : List Image :=
  match i with
  | .pack => []
  | .unpack => []
  | .blur5 => [j.dstImage]
  | .blur3 => [j.dstImage]
  | .sobel _ _ => [j.dstImage]
  | .pixelate _ => [j.dstImage]
  | .rblur _ => [j.dstImage, j.scrImage]
  | .rinvert _ => [j.dstImage]

/-- Every buffer the command uses lies inside PMEM (R167). -/
def inRange (words : Nat) (i : Instr) (j : Latched) : Bool := (buffers i j).all (·.fits words)

/-- SRC and DST overlap in a way an operation that may run in place forbids: different bases (R168). -/
def partialOverlap (j : Latched) : Bool := j.src != j.dst && j.srcImage.overlaps j.dstImage

/-- `aliasing_violation(OP)` (R168). -/
def aliasingViolation (i : Instr) (j : Latched) : Bool :=
  match i with
  | .pack => false
  | .unpack => false
  | .blur5 => j.srcImage.overlaps j.dstImage
  | .blur3 => j.srcImage.overlaps j.dstImage
  | .sobel _ _ => j.srcImage.overlaps j.dstImage
  | .pixelate _ => partialOverlap j
  | .rinvert _ => partialOverlap j
  | .rblur _ => partialOverlap j || j.scrImage.overlaps j.srcImage || j.scrImage.overlaps j.dstImage

/-- The checks on a decoded command's buffers: ERR_RANGE before ERR_OVERLAP (R161, R302). The checks that give
ERR_OPC and ERR_RSVD are `decode`'s. -/
def validate (words : Nat) (i : Instr) (j : Latched) : Option ErrCode :=
  if !inRange words i j then some .range
  else if aliasingViolation i j then some .overlap
  else none

end Sys2Proof.Machine
end

