-- ==== Sys2Proof/Machine/Command.lean ====
section
/-! DEFINITION. The life of a command in the engine (41_filter_contract.md R160 to R166, 70_reset_and_hazards.md R356) and the
reset input (R340 to R343). -/

namespace Sys2Proof.Machine

/-- Issue of a decoded command: validation against the current CSRs, then rejection or acceptance, in one step
(R160, R161). -/
def issue (i : Instr) (s : State) : State :=
  match validate s.addrW.words i (latch i s) with
  | some e => reject e s
  | none => accept i s

/-- What the engine does next for the command `i`, whose operation is `effect`. In IDLE the command is issued (R160).
In BUSY the operation runs on the latched operands and the command completes (R164, R165): the two steps of R356
(DEDUCED, log entry 8; the stop outside PMEM is log entry 11). -/
def runCommand (i : Instr) (effect : Latched → State → State) (s : State) : Host.Outcome State Fault Refusal :=
  match s.engine with
  | none => .next (issue i s)
  | some j =>
    if inRange s.addrW.words i j then .next (complete (effect j s)) else .fault .pmemAddress

/-- Give every word of some buffers a draw, from draw number `d` on (R342; log entry 17). -/
def scrambleBuffers (d : Nat) : List Image → Memory → Memory
  | [], m => m
  | b :: rest, m => scrambleBuffers (d + b.size) rest (scramble b.base b.size d m)

/-- The buffers whose words a reset leaves unspecified: those the abandoned command writes (R342), none in IDLE (R343). -/
def abandonedBuffers (s : State) : List Image :=
  match s.engine with
  | none => []
  | some j => writtenBuffers j.instr j

/-- The reset input (R340): every CSR takes its reset value and the engine enters IDLE. PMEM is kept (R343), but for the
buffers that a command abandoned by the reset writes, whose words are draws (R342). The model's own records (what
the ports last answered, the events to come) are no state of the PFC and stay (DESIGN CHOICE, log entry 13). -/
def resetMachine (s : State) : State :=
  { State.powerOn s.addrW with
    pmem := scrambleBuffers s.draws (abandonedBuffers s) s.pmem
    response := s.response
    events := s.events
    draws := s.draws + ((abandonedBuffers s).map Image.size).sum }

end Sys2Proof.Machine
end

