-- ==== Sys2Proof/Machine/Convolution.lean ====
section
/-! DEFINITION. The convolution engine: the window, the box average and the flat box blurs BLUR5 and BLUR3
(42_convolution.md R200 to R204). -/

namespace Sys2Proof.Machine

/-- The offsets −k to k, ascending (R200). -/
def offsets (k : Nat) : List Int := (List.range (2 * k + 1)).map fun n : Nat => (n : Int) - (k : Int)

/-- The neighbour of (x, y) at an offset, where it is in bounds (R200; R11). -/
def neighbour (w h x y : Nat) (dx dy : Int) : Option (Nat × Nat) :=
  let nx := (x : Int) + dx
  let ny := (y : Int) + dy
  if 0 ≤ nx ∧ nx < w ∧ 0 ≤ ny ∧ ny < h then some (nx.toNat, ny.toNat) else none

/-- The in-bounds neighbours of (x, y) in the window of radius k, dy outside and dx inside; the others are skipped (R200). -/
def window (w h x y k : Nat) : List (Nat × Nat) :=
  (offsets k).flatMap fun dy => (offsets k).filterMap fun dx => neighbour w h x y dx dy

/-- The sum of one channel over some pixel words. -/
def channelSum (ch : Word → Byte) (qs : List Word) : Nat := (qs.map fun q => (ch q).toNat).sum

/-- The pixel whose red, green and blue are the truncated means of the samples, with the given alpha (R201, R281). -/
def meanPixel (alpha : Byte) (qs : List Word) : Word :=
  argb alpha (meanByte (channelSum chR qs) qs.length) (meanByte (channelSum chG qs) qs.length)
    (meanByte (channelSum chB qs) qs.length)

/-- `boxavg(Bs, x, y, k)`: red, green and blue averaged over the included neighbours, the centre's own alpha (R201). -/
def boxAvg (img : Image) (m : Memory) (x y k : Nat) : Word :=
  meanPixel (chA (img.pix m x y)) ((window img.w img.h x y k).map fun p => img.pix m p.1 p.2)

/-- Each pixel of `dst`, row-major, becomes the box average of `src` with radius k (R203, R204). -/
def boxBlur (src dst : Image) (k : Nat) (m : Memory) : Memory :=
  forPixels dst.region.pixels (fun x y m => dst.setPix x y (boxAvg src m x y k) m) m

/-- The operation of BLUR5: radius 2 (R203). -/
def blur5Effect (j : Latched) (s : State) : State :=
  { s with pmem := boxBlur j.srcImage j.dstImage 2 s.pmem }

/-- BLUR5 (R203). -/
def execBlur5 (s : State) : Host.Outcome State Fault Refusal := runCommand .blur5 blur5Effect s

/-- The operation of BLUR3: radius 1 (R204). -/
def blur3Effect (j : Latched) (s : State) : State :=
  { s with pmem := boxBlur j.srcImage j.dstImage 1 s.pmem }

/-- BLUR3 (R204). -/
def execBlur3 (s : State) : Host.Outcome State Fault Refusal := runCommand .blur3 blur3Effect s

end Sys2Proof.Machine
end

