-- ==== Sys2Proof/Machine/EdgeMagnitude.lean ====
section
/-! DEFINITION. The edge-magnitude pipeline: grayscale, gradient, magnitude, border policy, and SOBEL
(43_edge_magnitude.md R220 to R226). -/

namespace Sys2Proof.Machine

/-- `2126·r + 7152·g + 722·b`: 10000 times the luminance (R221). -/
def luminance (q : Word) : Nat := 2126 * (chR q).toNat + 7152 * (chG q).toNat + 722 * (chB q).toNat

/-- The grayscale value Y(q) of a sample (R221). -/
def gray : GrayMode → Word → Nat
  | .lum, q => luminance q
  | .mean, q => ((chR q).toNat + (chG q).toNat + (chB q).toNat) / 3
  | .lumt, q => luminance q / 10000

/-- The scale Q of the grayscale values (R221). -/
def grayScale : GrayMode → Nat
  | .lum => 10000
  | .mean => 1
  | .lumt => 1

/-- `Kx(dx, dy) = dx · (2 − |dy|)` (R222). -/
def kernelX (dx dy : Int) : Int := dx * (2 - (dy.natAbs : Int))
/-- `Ky(dx, dy) = dy · (2 − |dx|)` (R222). -/
def kernelY (dx dy : Int) : Int := dy * (2 - (dx.natAbs : Int))

/-- The sum over the 3×3 window of kernel weights times samples (R223). -/
def gradient (kernel : Int → Int → Int) (sample : Int → Int → Int) : Int :=
  ((offsets 1).map fun dy => ((offsets 1).map fun dx => kernel dx dy * sample dx dy).sum).sum

/-- The grayscale sample at an offset from an interior pixel (R223); every such offset is in bounds. -/
def graySample (gm : GrayMode) (src : Image) (m : Memory) (x y : Nat) (dx dy : Int) : Int :=
  gray gm (src.pix m ((x : Int) + dx).toNat ((y : Int) + dy).toNat)

/-- Build the integer square root bit by bit: `r` is right above bit `b`, and bits `b − 1` to 0 are still open. -/
def isqrtBits (n : Nat) : Nat → Nat → Nat
  | 0, r => r
  | b + 1, r => isqrtBits n b (if (r + 2 ^ b) * (r + 2 ^ b) ≤ n then r + 2 ^ b else r)

/-- `isqrt(n)`: the greatest m with m·m ≤ n (R9). -/
def isqrt (n : Nat) : Nat := isqrtBits n (n.log2 / 2 + 1) 0

/-- `m = min(255, (isqrt(4·(gx² + gy²)) + Q) div (2·Q))` (R224). -/
def magnitude (q : Nat) (gx gy : Int) : Nat :=
  min 255 ((isqrt (4 * (gx * gx + gy * gy).toNat) + q) / (2 * q))

/-- The opaque gray pixel of a magnitude (R224). -/
def grayPixel (mag : Nat) : Word :=
  argb 255 (BitVec.ofNat 8 mag) (BitVec.ofNat 8 mag) (BitVec.ofNat 8 mag)

/-- The output pixel at an interior pixel (R220, R223, R224). -/
def sobelInterior (gm : GrayMode) (src : Image) (m : Memory) (x y : Nat) : Word :=
  grayPixel (magnitude (grayScale gm) (gradient kernelX (graySample gm src m x y))
    (gradient kernelY (graySample gm src m x y)))

/-- The output pixel at a border pixel (R225). -/
def sobelBorder : BorderMode → Image → Memory → Nat → Nat → Word
  | .copy, src, m, x, y => src.pix m x y
  | .zero, _, _, _, _ => 0

/-- A border pixel: x = 0, y = 0, x = W−1 or y = H−1 (R225). -/
def isBorder (w h x y : Nat) : Bool := decide (x = 0 ∨ y = 0 ∨ x + 1 = w ∨ y + 1 = h)

/-- The output pixel of SOBEL (R226). -/
def sobelPixel (gm : GrayMode) (bz : BorderMode) (src : Image) (m : Memory) (x y : Nat) : Word :=
  if isBorder src.w src.h x y then sobelBorder bz src m x y else sobelInterior gm src m x y

/-- Each pixel of `dst`, row-major, becomes the SOBEL output pixel of `src` (R226). -/
def sobelImage (gm : GrayMode) (bz : BorderMode) (src dst : Image) (m : Memory) : Memory :=
  forPixels dst.region.pixels (fun x y m => dst.setPix x y (sobelPixel gm bz src m x y) m) m

/-- The operation of SOBEL (R226). -/
def sobelEffect (gm : GrayMode) (bz : BorderMode) (j : Latched) (s : State) : State :=
  { s with pmem := sobelImage gm bz j.srcImage j.dstImage s.pmem }

/-- SOBEL (R226). -/
def execSobel (gm : GrayMode) (bz : BorderMode) (s : State) : Host.Outcome State Fault Refusal :=
  runCommand (.sobel gm bz) (sobelEffect gm bz) s

end Sys2Proof.Machine
end

