-- ==== Sys2Proof/Machine/PackedColor.lean ====
section
/-! DEFINITION. The packed-colour encoder and decoder: PACK and UNPACK (40_packed_color.md R153, R154). -/

namespace Sys2Proof.Machine

/-- Every channel input of PACK is in 0..255, compared as an unsigned 32-bit value (R153). -/
def channelsInRange (j : Latched) : Bool :=
  decide (j.pkA.toNat ≤ 255 ∧ j.pkR.toNat ≤ 255 ∧ j.pkG.toNat ≤ 255 ∧ j.pkB.toNat ≤ 255)

/-- The operation of PACK: the packed channels, or a draw where a channel is out of range (R153, U1). -/
def packEffect (j : Latched) (s : State) : State :=
  if channelsInRange j then
    { s with pkOut := argb (j.pkA.setWidth 8) (j.pkR.setWidth 8) (j.pkG.setWidth 8) (j.pkB.setWidth 8) }
  else
    { s with pkOut := Config.freeWord s.draws, draws := s.draws + 1 }

/-- PACK (R153). -/
def execPack (s : State) : Host.Outcome State Fault Refusal := runCommand .pack packEffect s

/-- The operation of UNPACK: the four channels of UP_IN (R154). -/
def unpackEffect (j : Latched) (s : State) : State :=
  { s with upA := chA j.upIn, upR := chR j.upIn, upG := chG j.upIn, upB := chB j.upIn }

/-- UNPACK (R154). -/
def execUnpack (s : State) : Host.Outcome State Fault Refusal := runCommand .unpack unpackEffect s

end Sys2Proof.Machine
end

