-- ==== Sys2Proof/Machine/Quadrant.lean ====
section
/-! DEFINITION. The recursive quadrant traversal controller: RBLUR and RINVERT (44_quadrant_traversal.md R250 to R257). -/

namespace Sys2Proof.Machine

/-- A base region: `w ≤ T or h ≤ T` (R250). -/
def Region.isBase (t : Nat) (r : Region) : Bool := decide (r.w ≤ t ∨ r.h ≤ t)

/-- The quadrant TL (R250). -/
def Region.topLeft (r : Region) : Region := ⟨r.x0, r.y0, r.w / 2, r.h / 2⟩
/-- The quadrant TR (R250). -/
def Region.topRight (r : Region) : Region := ⟨r.x0 + r.w / 2, r.y0, r.w - r.w / 2, r.h / 2⟩
/-- The quadrant BL (R250). -/
def Region.bottomLeft (r : Region) : Region := ⟨r.x0, r.y0 + r.h / 2, r.w / 2, r.h - r.h / 2⟩
/-- The quadrant BR (R250). -/
def Region.bottomRight (r : Region) : Region := ⟨r.x0 + r.w / 2, r.y0 + r.h / 2, r.w - r.w / 2, r.h - r.h / 2⟩

/-- The regions of a traversal, depth-first and pre-order, quadrants in the order TL, TR, BL, BR (R251). `levels` bounds
the recursion; `visitImage` gives it a value that no image reaches (R257). -/
def visit (t : Nat) : Nat → Region → List Region
  | 0, r => [r]
  | levels + 1, r =>
    if r.isBase t then [r]
    else r :: (visit t levels r.topLeft ++ visit t levels r.topRight ++ visit t levels r.bottomLeft ++
      visit t levels r.bottomRight)

/-- The most levels of a traversal, the root included: 17 for 16-bit dimensions (R257). -/
def traversalLevels : Nat := 17

/-- The regions of the traversal of a whole image (R251). -/
def visitImage (t : Nat) (img : Image) : List Region := visit t traversalLevels img.region

/-- Copy a region of one buffer to another, row-major. -/
def copyRegion (src dst : Image) (r : Region) (m : Memory) : Memory :=
  forPixels r.pixels (fun x y m => dst.setPix x y (src.pix m x y) m) m

/-- Pass (a) of the region blur: the region's 3×3 box averages of `img` into `scr` (R254). -/
def blurToScratch (img scr : Image) (r : Region) (m : Memory) : Memory :=
  forPixels r.pixels (fun x y m => scr.setPix x y (boxAvg img m x y 1) m) m

/-- `blur_region(R)`: pass (a), then the copy back of pass (b) (R254). -/
def blurRegion (img scr : Image) (m : Memory) (r : Region) : Memory :=
  copyRegion scr img r (blurToScratch img scr r m)

/-- The working image becomes the input, where they are different buffers (R252). -/
def loadWorking (src dst : Image) (m : Memory) : Memory :=
  if src.base ≠ dst.base then copyRegion src dst dst.region m else m

/-- The image result of RBLUR: the working image loaded, then every region of the traversal blurred (R252). -/
def rblurImage (src dst scr : Image) (t : Nat) (m : Memory) : Memory :=
  (visitImage t dst).foldl (blurRegion dst scr) (loadWorking src dst m)

/-- The operation of RBLUR; it leaves a draw in every word of SCR (R252, U2). -/
def rblurEffect (param : Nat) (j : Latched) (s : State) : State :=
  { s with
    pmem := scramble j.scrImage.base j.scrImage.size s.draws
      (rblurImage j.srcImage j.dstImage j.scrImage (blurThreshold param) s.pmem)
    draws := s.draws + j.scrImage.size }

/-- RBLUR (R252). -/
def execRblur (param : Nat) (s : State) : Host.Outcome State Fault Refusal :=
  runCommand (.rblur param) (rblurEffect param) s

/-- `inv(p)`: each of red, green and blue is 255 minus itself; alpha is kept (R253). -/
def invertPixel (p : Word) : Word := argb (chA p) (255 - chR p) (255 - chG p) (255 - chB p)

/-- A base region's pixels inverted, row-major (R255). -/
def invertRegion (src dst : Image) (m : Memory) (r : Region) : Memory :=
  forPixels r.pixels (fun x y m => dst.setPix x y (invertPixel (src.pix m x y)) m) m

/-- The image result of RINVERT: the base regions of the traversal inverted; other levels process nothing (R255). -/
def rinvertImage (src dst : Image) (t : Nat) (m : Memory) : Memory :=
  ((visitImage t dst).filter (·.isBase t)).foldl (invertRegion src dst) m

/-- The operation of RINVERT (R255). -/
def rinvertEffect (param : Nat) (j : Latched) (s : State) : State :=
  { s with pmem := rinvertImage j.srcImage j.dstImage (invertThreshold param) s.pmem }

/-- RINVERT (R255). -/
def execRinvert (param : Nat) (s : State) : Host.Outcome State Fault Refusal :=
  runCommand (.rinvert param) (rinvertEffect param) s

end Sys2Proof.Machine
end

