-- ==== Sys2Proof/Machine/Quantizer.lean ====
section
/-! DEFINITION. The block-averaging quantizer: PIXELATE (45_block_quantizer.md R280 to R282). -/

namespace Sys2Proof.Machine

/-- The block starts 0, S, 2S, … below n (R280). -/
def blockStarts (size n : Nat) : List Nat := (List.range ((n + size - 1) / size)).map (· * size)

/-- The block that starts at (bx, by): `(bx, by, min(S, W − bx), min(S, H − by))` (R280). -/
def block (size w h bx yb : Nat) : Region := ⟨bx, yb, min size (w - bx), min size (h - yb)⟩

/-- The blocks of an image, by outside and bx inside (R280, R282). -/
def blocks (size w h : Nat) : List Region :=
  (blockStarts size h).flatMap fun yb => (blockStarts size w).map fun bx => block size w h bx yb

/-- `avg(Bk)`: the opaque truncated mean of a block's pixels (R281). -/
def blockAvg (src : Image) (m : Memory) (b : Region) : Word :=
  meanPixel 255 (b.pixels.map fun p => src.pix m p.1 p.2)

/-- Fill a region with one pixel value, row-major (R282, pass 2). -/
def fillRegion (dst : Image) (b : Region) (v : Word) (m : Memory) : Memory :=
  forPixels b.pixels (fun x y m => dst.setPix x y v m) m

/-- Both passes on one block: accumulate, then write (R282). -/
def pixelateBlock (src dst : Image) (m : Memory) (b : Region) : Memory :=
  fillRegion dst b (blockAvg src m b) m

/-- The blocks of the image, one after another (R282). -/
def pixelateImage (src dst : Image) (size : Nat) (m : Memory) : Memory :=
  (blocks size src.w src.h).foldl (pixelateBlock src dst) m

/-- The operation of PIXELATE (R282). -/
def pixelateEffect (param : Nat) (j : Latched) (s : State) : State :=
  { s with pmem := pixelateImage j.srcImage j.dstImage (blockSize param) s.pmem }

/-- PIXELATE (R282). -/
def execPixelate (param : Nat) (s : State) : Host.Outcome State Fault Refusal :=
  runCommand (.pixelate param) (pixelateEffect param) s

end Sys2Proof.Machine
end

