-- ==== Sys2Proof/Machine/Dispatch.lean ====
section
/-! DEFINITION. What the engine does next for each command: its issue in IDLE, its execution and completion in BUSY. -/

namespace Sys2Proof.Machine

def exec (i : Instr) (s : State) : Host.Outcome State Fault Refusal :=
  match i with
  | .pack => Sys2Proof.Machine.execPack s
  | .unpack => Sys2Proof.Machine.execUnpack s
  | .blur5 => Sys2Proof.Machine.execBlur5 s
  | .blur3 => Sys2Proof.Machine.execBlur3 s
  | .sobel gm bz => Sys2Proof.Machine.execSobel gm bz s
  | .pixelate param => Sys2Proof.Machine.execPixelate param s
  | .rblur param => Sys2Proof.Machine.execRblur param s
  | .rinvert param => Sys2Proof.Machine.execRinvert param s

end Sys2Proof.Machine
end

