-- ==== Sys2Proof/Machine/Port.lean ====
section
/-! DEFINITION. The host's two ports: the CSR map, the busy gate, CSR and PMEM transactions, and the issue of a command by a
CMD write (10_state.md R22 to R35, 20_memory.md R46 to R50). -/

namespace Sys2Proof.Machine

/-- The registers of the CSR map (R22). -/
inductive Csr where
  | id | cmd | status | ctrl | width | height | srcBase | dstBase | scrBase
  | pkA | pkR | pkG | pkB | pkOut | upIn | upA | upR | upG | upB
deriving DecidableEq, Repr

/-- The registers in the order of their offsets 0x000, 0x004, … 0x048 (R22). -/
def csrMap : List Csr :=
  [.id, .cmd, .status, .ctrl, .width, .height, .srcBase, .dstBase, .scrBase,
   .pkA, .pkR, .pkG, .pkB, .pkOut, .upIn, .upA, .upR, .upG, .upB]

/-- The register at an aligned byte offset; `none` is unmapped (R22, R23). -/
def csrAt (offset : BitVec 12) : Option Csr := csrMap[offset.toNat / 4]?

/-- The offset of CMD (R22). -/
def cmdOffset : BitVec 12 := 0x004

/-- A CSR offset is aligned when its two low bits are 0 (R49). -/
def aligned (offset : BitVec 12) : Bool := offset.extractLsb' 0 2 == 0

/-- The system address of a CSR offset, for the platform that places the ports; no rule depends on it (R51). -/
def csrSysAddr (offset : BitVec 12) : Nat := Config.csrSysBase + offset.toNat

/-- The system address of a PMEM word, taken as four byte lanes a word (R48, R51; log entry 16); no rule depends on it. -/
def pmemSysAddr (wa : Nat) : Nat := Config.pmemSysBase + 4 * wa

/-- The value ID always reads (R24). -/
def idWord : Word := 0x50580007

/-- The value a host read of a register returns (R22 to R35). -/
def readCsr (s : State) : Csr → Word
  | .id => idWord
  | .cmd => s.cmd
  | .status => statusWord s
  | .ctrl => (BitVec.ofBool s.ie).setWidth 32
  | .width => s.width.setWidth 32
  | .height => s.height.setWidth 32
  | .srcBase => s.srcBase
  | .dstBase => s.dstBase
  | .scrBase => s.scrBase
  | .pkA => s.pkA
  | .pkR => s.pkR
  | .pkG => s.pkG
  | .pkB => s.pkB
  | .pkOut => s.pkOut
  | .upIn => s.upIn
  | .upA => s.upA.setWidth 32
  | .upR => s.upR.setWidth 32
  | .upG => s.upG.setWidth 32
  | .upB => s.upB.setWidth 32

/-- The registers whose writes are busy-gated (R22, R31). -/
def Csr.gated : Csr → Bool
  | .cmd | .width | .height | .srcBase | .dstBase | .scrBase | .pkA | .pkR | .pkG | .pkB | .upIn => true
  | .id | .status | .ctrl | .pkOut | .upA | .upR | .upG | .upB => false

/-- The value a base register stores: bits [ADDR_W−1:0] of the value written (R30). -/
def baseValue (s : State) (v : Word) : Word := BitVec.ofNat 32 (v.toNat % s.addrW.words)

/-- What a write that is not refused stores in a register: reserved bits dropped, read-only registers unchanged (R22 to
R35). A CMD write also issues the command; see `issueWord`. -/
def storeCsr (s : State) (v : Word) : Csr → State
  | .id => s
  | .cmd => { s with cmd := v }
  | .status => writeStatus v s
  | .ctrl => { s with ie := v.getLsbD 0 }
  | .width => { s with width := v.setWidth 16 }
  | .height => { s with height := v.setWidth 16 }
  | .srcBase => { s with srcBase := baseValue s v }
  | .dstBase => { s with dstBase := baseValue s v }
  | .scrBase => { s with scrBase := baseValue s v }
  | .pkA => { s with pkA := v }
  | .pkR => { s with pkR := v }
  | .pkG => { s with pkG := v }
  | .pkB => { s with pkB := v }
  | .pkOut => s
  | .upIn => { s with upIn := v }
  | .upA => s
  | .upR => s
  | .upG => s
  | .upB => s

/-- The answer to a read. -/
def answer (v : Word) (s : State) : State := { s with response := some ⟨false, some v⟩ }
/-- The answer to a write that is no error; a refused or ignored write gets it too (R23, R31; DEDUCED, log entry 18). -/
def acknowledge (s : State) : State := { s with response := some ⟨false, none⟩ }
/-- A host access the busy gate refused sets ACCERR (R31, R47). -/
def refuseAccess (s : State) : State := { s with accErr := true }

/-- Issue of the command word `c`, which CMD holds now: an illegal word is rejected, a command goes to the engine
(R26, R107, R160, R161). -/
def issueWord (c : Word) (s : State) : Host.Outcome State Fault Refusal :=
  match decode c with
  | .error e => .next (reject e s)
  | .ok i => exec i s

/-- A host read of a CSR (R23, R31); a misaligned one gets an error response and the data 0 (R49). -/
def csrRead (offset : BitVec 12) (s : State) : State :=
  if aligned offset then
    match csrAt offset with
    | some r => answer (readCsr s r) s
    | none => answer 0 s
  else { s with response := some ⟨true, some 0⟩ }

/-- A host write of a mapped register: the busy gate (R31), the store, and for CMD the issue of the command (R26). -/
def writeRegister (r : Csr) (v : Word) (s : State) : Host.Outcome State Fault Refusal :=
  if r.gated && s.busy then .next (refuseAccess s)
  else if r = .cmd then issueWord v (storeCsr s v r)
  else .next (storeCsr s v r)

/-- A host write of a CSR; a write at an unmapped offset is ignored (R23), a misaligned one gets an error response and has
no effect (R49). -/
def csrWrite (offset : BitVec 12) (v : Word) (s : State) : Host.Outcome State Fault Refusal :=
  if aligned offset then
    match csrAt offset with
    | some r => writeRegister r v (acknowledge s)
    | none => .next (acknowledge s)
  else .next { s with response := some ⟨true, none⟩ }

/-- A host read of a PMEM word: the word, or 0 and ACCERR while BUSY = 1 (R47; DEDUCED against R50, log entry 10). -/
def pmemRead (wa : Word) (s : State) : State :=
  if s.busy then answer 0 (refuseAccess s) else answer (readWord s.pmem (pmemIndex s wa)) s

/-- A host write of a PMEM word: it replaces the word, or is discarded and sets ACCERR while BUSY = 1 (R47). -/
def pmemWrite (wa v : Word) (s : State) : State :=
  if s.busy then acknowledge (refuseAccess s)
  else acknowledge { s with pmem := writeWord s.pmem (pmemIndex s wa) v }

/-- One host transaction (R46). -/
def transact (t : Txn) (s : State) : Host.Outcome State Fault Refusal :=
  match t with
  | .csrRead offset => .next (csrRead offset s)
  | .csrWrite offset v => csrWrite offset v s
  | .pmemRead wa => .next (pmemRead wa s)
  | .pmemWrite wa v => .next (pmemWrite wa v s)

/-- A turn of the engine: in BUSY it completes its command (R164, R165), in IDLE it does nothing (R325). -/
def engineTurn (s : State) : Host.Outcome State Fault Refusal :=
  match s.engine with
  | none => .next s
  | some j => exec j.instr s

/-- One event of the total order (R53). -/
def handle (e : Event) (s : State) : Host.Outcome State Fault Refusal :=
  match e with
  | .host t => transact t s
  | .engine => engineTurn s
  | .reset => .next (resetMachine s)

/-- The state with its next event to be the CMD write of a command word, and the engine IDLE, so that the write issues it. -/
def placeCommand (c : Word) (s : State) : State :=
  { s with engine := none, events := .host (.csrWrite cmdOffset c) :: s.events }

end Sys2Proof.Machine
end

