-- ==== Sys2Proof/Machine/Step.lean ====
section
/-! DEFINITION. One step of the machine: the next event of the total order of 20_memory.md R53. -/

namespace Sys2Proof.Machine

/-- The next event takes effect. When no event is listed the engine has the turn, so that an accepted command always
completes (70_reset_and_hazards.md R357; DESIGN CHOICE, log entry 12). -/
def step (s : State) : Host.Outcome State Fault Refusal :=
  match s.events with
  | [] => engineTurn s
  | e :: rest => handle e { s with events := rest }

/-- The state whose next step is the CMD write of the command word with those bits: the machine's one form of fetch (R21,
R58; log entry 7). -/
def State.withFetchWord (s : State) (nbits w : Nat) : State := placeCommand (tableWord nbits w) s

end Sys2Proof.Machine
end

