-- ==== Sys2Proof/Safety.lean ====
section
/-! DEFINITION. The terms claims use: the invariant that every step keeps, the bytes of a buffer, and an image as a
function of its coordinates. -/

namespace Sys2Proof.Machine

/-- The command a busy engine executes agrees with the registers it was latched from, which the busy gate keeps as they
were (R31, R37, R162), and it passed validation (R161). -/
structure LatchedOk (s : State) (j : Latched) : Prop where
  /-- CMD still holds the word the latched command was decoded from (R25, R26). -/
  cmd_decodes : decode s.cmd = .ok j.instr
  /-- The operand registers still hold what was latched (R31, R350). -/
  operands_held : latch j.instr s = j
  /-- The command passed the range and aliasing checks (R161). -/
  validated : validate s.addrW.words j.instr j = none

/-- What holds at reset and after every step. -/
structure Inv (s : State) : Prop where
  /-- Pixel memory is in canonical form. -/
  pmem_wf : s.pmem.wf = true
  /-- Every written byte lies in a word 0 to PMEM_WORDS − 1 (R41). -/
  pmem_bounded : ∀ c ∈ s.pmem, c.1 < 4 * s.addrW.words
  /-- Bits [31:ADDR_W] of SRC_BASE are 0 (R30). -/
  src_bounded : s.srcBase.toNat < s.addrW.words
  /-- Bits [31:ADDR_W] of DST_BASE are 0 (R30). -/
  dst_bounded : s.dstBase.toNat < s.addrW.words
  /-- Bits [31:ADDR_W] of SCR_BASE are 0 (R30). -/
  scr_bounded : s.scrBase.toNat < s.addrW.words
  /-- ECODE is 0 to 4 (R301, U8). -/
  ecode_legal : s.ecode.toNat ≤ 4
  /-- ERR is 1 exactly while ECODE names an error: they are set and cleared together (R27, R163). -/
  err_iff_ecode : s.err = true ↔ s.ecode ≠ 0
  /-- A busy engine executes a validated command. -/
  latched_ok : ∀ j, s.engine = some j → LatchedOk s j

/-- `n` steps of the machine, stopping at the first fault or refusal. -/
def runSteps (n : Nat) (s : State) : Host.Outcome State Fault Refusal := core.run n s

/-- A byte address of the buffer: a lane of one of its words (R45, R48). -/
def Image.hasByte (i : Image) (a : Nat) : Prop := 4 * i.base ≤ a ∧ a < 4 * (i.base + i.size)

/-- A coordinate of the region (R12). -/
def Region.contains (r : Region) (x y : Nat) : Bool :=
  decide (r.x0 ≤ x ∧ x < r.x0 + r.w ∧ r.y0 ≤ y ∧ y < r.y0 + r.h)

/-- An image as the pixel at each coordinate. -/
abbrev Picture := Nat → Nat → Word

/-- The picture a buffer holds. -/
def Image.picture (i : Image) (m : Memory) : Picture := fun x y => i.pix m x y

/-- `boxavg` of a picture of size w × h (R201). -/
def Picture.boxAvg (f : Picture) (w h x y k : Nat) : Word :=
  meanPixel (chA (f x y)) ((window w h x y k).map fun p => f p.1 p.2)

/-- A picture after one region blur: the region's pixels become their 3×3 box averages in the picture as it was, the
others stay (R254). -/
def Picture.blurRegion (w h : Nat) (f : Picture) (r : Region) : Picture :=
  fun x y => if r.contains x y then f.boxAvg w h x y 1 else f x y

/-- The gray sample at (x, y) of a picture, as an integer (R221). -/
def Picture.gray (gm : GrayMode) (f : Picture) (x y : Nat) : Int := Sys2Proof.Machine.gray gm (f x y)

/-- `gx` at an interior pixel, written out from the matrix Gx of R222. -/
def Picture.gradX (gm : GrayMode) (f : Picture) (x y : Nat) : Int :=
  (f.gray gm (x + 1) (y - 1) + 2 * f.gray gm (x + 1) y + f.gray gm (x + 1) (y + 1)) -
    (f.gray gm (x - 1) (y - 1) + 2 * f.gray gm (x - 1) y + f.gray gm (x - 1) (y + 1))

/-- `gy` at an interior pixel, written out from the matrix Gy of R222. -/
def Picture.gradY (gm : GrayMode) (f : Picture) (x y : Nat) : Int :=
  (f.gray gm (x - 1) (y + 1) + 2 * f.gray gm x (y + 1) + f.gray gm (x + 1) (y + 1)) -
    (f.gray gm (x - 1) (y - 1) + 2 * f.gray gm x (y - 1) + f.gray gm (x + 1) (y - 1))

/-- The commands that work on images (R169). -/
def isImageCommand : Instr → Bool
  | .pack | .unpack => false
  | .blur5 | .blur3 | .sobel _ _ | .pixelate _ | .rblur _ | .rinvert _ => true

/-- Address `a` is one of the words `[base, base + n)`. -/
def inExtent (base n a : Nat) : Prop := base ≤ a ∧ a < base + n

/-- Two buffers of `n` words share at least one word (R168). -/
def shareWord (b c n : Nat) : Prop := ∃ a, inExtent b n a ∧ inExtent c n a

end Sys2Proof.Machine
end

