-- ==== Sys2Proof/Certificates/Slice0/Obligations.lean ====
section
/-! DEFINITION. The statements for the provers, each from the numbered rules of spec/. -/

open Sys2Proof Sys2Proof.Machine

/-! ## Encoding -/

/-- R100 to R105: the decoder reads back every well-formed command from its own word, with every field value. -/
def Obligations.EncodedCommandDecodesBack : Prop :=
  ∀ i : Instr, i.wellFormed = true → decode (encode i) = .ok i

/-- R107: the word of a decoded command is exactly the word it was decoded from, and the command is well formed; so no
two words stand for one command. -/
def Obligations.DecodedWordEncodesBack : Prop :=
  ∀ (c : Word) (i : Instr), decode c = .ok i → encode i = c ∧ i.wellFormed = true

/-- R107, case by case: ERR_OPC exactly for a reserved opcode; otherwise ERR_RSVD exactly for a reserved bit or GM = 3;
otherwise the command that c[3:0] names with the fields of c. -/
def Obligations.DecodeFollowsThreeCases : Prop :=
  ∀ c : Word,
    let op := (c.extractLsb' 0 4).toNat
    let gm := (c.extractLsb' 4 2).toNat
    let bz := (c.extractLsb' 6 1).toNat
    let param := (c.extractLsb' 8 8).toNat
    let illegal := c.extractLsb' 16 16 ≠ 0 ∨ c.extractLsb' 7 1 ≠ 0 ∨ (op ≤ 5 ∧ param ≠ 0) ∨
      (op ≠ 5 ∧ c.extractLsb' 4 3 ≠ 0) ∨ (op = 5 ∧ gm = 3)
    (op = 0 ∨ 9 ≤ op → decode c = .error .opc) ∧
    (1 ≤ op ∧ op ≤ 8 ∧ illegal → decode c = .error .rsvd) ∧
    (1 ≤ op ∧ op ≤ 8 ∧ ¬ illegal →
      (op = 1 → decode c = .ok .pack) ∧ (op = 2 → decode c = .ok .unpack) ∧
      (op = 3 → decode c = .ok .blur5) ∧ (op = 4 → decode c = .ok .blur3) ∧
      (op = 5 → decode c = .ok (.sobel (if gm = 0 then .lum else if gm = 1 then .mean else .lumt)
        (if bz = 0 then .copy else .zero))) ∧
      (op = 6 → decode c = .ok (.pixelate param)) ∧ (op = 7 → decode c = .ok (.rblur param)) ∧
      (op = 8 → decode c = .ok (.rinvert param)))

/-- R110: the encoding examples. -/
def Obligations.EncodingExamplesDecode : Prop :=
  decode 0x00000055 = .ok (.sobel .mean .zero) ∧ decode 0x00000406 = .ok (.pixelate 4) ∧
  decode 0x00000007 = .ok (.rblur 0) ∧ decode 0x00000808 = .ok (.rinvert 8) ∧
  decode 0x00000025 = .ok (.sobel .lumt .copy) ∧ decode 0x00000035 = .error .rsvd ∧
  decode 0x00000103 = .error .rsvd ∧ decode 0x0000000A = .error .opc

/-! ## Steps, issue, rejection, acceptance -/

/-- R26, R160: a CMD write in IDLE stores the word and runs the decoded command: the step is `exec` of it, on the state
past the transaction, with CMD written and the transaction acknowledged (the response is the model's record, log entry 5). -/
def Obligations.StepRunsDecodedCommand : Prop :=
  ∀ (s : State) (c : Word) (i : Instr) (rest : List Event),
    s.engine = none → s.events = .host (.csrWrite 0x004 c) :: rest → decode c = .ok i →
    step s = exec i { s with events := rest, cmd := c, response := some ⟨false, none⟩ }

/-- R163, R301, R302: a CMD write in IDLE of an illegal word sets DONE, ERR and ECODE (1 for ERR_OPC, 2 for ERR_RSVD), CMD
holds the word, and nothing else changes. The recorded answer is the model's (log entries 5 and 18). -/
def Obligations.IllegalWordIsRejected : Prop :=
  ∀ (s : State) (c : Word) (e : ErrCode) (rest : List Event),
    s.engine = none → s.events = .host (.csrWrite 0x004 c) :: rest → decode c = .error e →
    (e = .opc ∨ e = .rsvd) ∧
    step s = .next { s with
      events := rest, cmd := c, response := some ⟨false, none⟩, done := true, err := true,
      ecode := if e = .opc then 1 else 2 }

/-- R164, R325, R357: when the engine has the turn (its own event, or no event left) the step runs the latched command; in
IDLE it does nothing. -/
def Obligations.EngineTurnRunsLatchedCommand : Prop :=
  ∀ s : State,
    (∀ j, s.engine = some j →
      (s.events = [] → step s = exec j.instr s) ∧
      (∀ rest, s.events = .engine :: rest → step s = exec j.instr { s with events := rest })) ∧
    (s.engine = none →
      (s.events = [] → step s = .next s) ∧
      (∀ rest, s.events = .engine :: rest → step s = .next { s with events := rest }))

/-- R161, R167: an image command in IDLE is rejected with ERR_RANGE (3) when a buffer it uses extends past PMEM, SCR
counting for RBLUR only; nothing else changes. -/
def Obligations.BufferPastMemoryIsRejected : Prop :=
  ∀ (s : State) (i : Instr), s.engine = none → isImageCommand i = true →
    (2 ^ s.addrW.val < s.srcBase.toNat + s.width.toNat * s.height.toNat ∨
     2 ^ s.addrW.val < s.dstBase.toNat + s.width.toNat * s.height.toNat ∨
     ((∃ p, i = .rblur p) ∧ 2 ^ s.addrW.val < s.scrBase.toNat + s.width.toNat * s.height.toNat)) →
    exec i s = .next { s with done := true, err := true, ecode := 3 }

/-- R161, R167, R168: with every buffer it uses in range (SCR for RBLUR only), an image command in IDLE is rejected with
ERR_OVERLAP (4) exactly when its buffers alias as its row of R168 says; otherwise it is accepted, and only the engine
changes, to the command with the current operand registers latched. R162 names the command word, W, H and the bases for
these commands; that PK_A to PK_B and UP_IN are latched beside them is the model's (log entry 9). -/
def Obligations.AliasingDecidesAcceptance : Prop :=
  ∀ (s : State) (i : Instr), s.engine = none → isImageCommand i = true →
    let latched : Latched :=
      { instr := i, w := s.width, h := s.height, src := s.srcBase, dst := s.dstBase, scr := s.scrBase,
        pkA := s.pkA, pkR := s.pkR, pkG := s.pkG, pkB := s.pkB, upIn := s.upIn }
    let n := s.width.toNat * s.height.toNat
    let src := s.srcBase.toNat
    let dst := s.dstBase.toNat
    let scr := s.scrBase.toNat
    let violation :=
      ((i = .blur5 ∨ i = .blur3 ∨ ∃ gm bz, i = .sobel gm bz) ∧ shareWord src dst n) ∨
      (((∃ p, i = .pixelate p) ∨ ∃ p, i = .rinvert p) ∧ src ≠ dst ∧ shareWord src dst n) ∨
      ((∃ p, i = .rblur p) ∧
        ((src ≠ dst ∧ shareWord src dst n) ∨ shareWord scr src n ∨ shareWord scr dst n))
    src + n ≤ 2 ^ s.addrW.val → dst + n ≤ 2 ^ s.addrW.val →
    ((∃ p, i = .rblur p) → scr + n ≤ 2 ^ s.addrW.val) →
    (violation → exec i s = .next { s with done := true, err := true, ecode := 4 }) ∧
    (¬ violation → exec i s = .next { s with engine := some latched })

/-- R162, R167, R168, R301: PACK and UNPACK use no buffer, so in IDLE they are always accepted. That each latches the other's
data inputs too is the model's (log entry 9). -/
def Obligations.PackAndUnpackAreAlwaysAccepted : Prop :=
  ∀ (s : State) (i : Instr), s.engine = none → (i = .pack ∨ i = .unpack) →
    let latched : Latched :=
      { instr := i, w := s.width, h := s.height, src := s.srcBase, dst := s.dstBase, scr := s.scrBase,
        pkA := s.pkA, pkR := s.pkR, pkG := s.pkG, pkB := s.pkB, upIn := s.upIn }
    exec i s = .next { s with engine := some latched }

/-- R169: with W = 0 or H = 0, and bases that are PMEM addresses as R30 makes them, an image command is accepted in IDLE,
and in BUSY it completes with no PMEM word written. That every operand register is latched is the model's (log entry 9). -/
def Obligations.ZeroAreaImageCompletesUntouched : Prop :=
  ∀ (s : State) (i : Instr), isImageCommand i = true →
    (s.engine = none → (s.width = 0 ∨ s.height = 0) → s.srcBase.toNat < 2 ^ s.addrW.val →
      s.dstBase.toNat < 2 ^ s.addrW.val → s.scrBase.toNat < 2 ^ s.addrW.val →
      exec i s = .next { s with engine := some (latch i s) }) ∧
    (∀ j, s.engine = some j → (j.w = 0 ∨ j.h = 0) → j.src.toNat < 2 ^ s.addrW.val →
      j.dst.toNat < 2 ^ s.addrW.val → j.scr.toNat < 2 ^ s.addrW.val →
      exec i s = .next { s with engine := none, done := true })

/-- The model's stop, R43, R44 (log entry 11): in a state that no run reaches, where a busy engine's latched buffers extend past
PMEM, an image command's meaning faults, since the engine has no such access. -/
def Obligations.LatchedBufferPastMemoryFaults : Prop :=
  ∀ (s : State) (i : Instr) (j : Latched), s.engine = some j → isImageCommand i = true →
    (2 ^ s.addrW.val < j.src.toNat + j.w.toNat * j.h.toNat ∨ 2 ^ s.addrW.val < j.dst.toNat + j.w.toNat * j.h.toNat ∨
     ((∃ p, i = .rblur p) ∧ 2 ^ s.addrW.val < j.scr.toNat + j.w.toNat * j.h.toNat)) →
    exec i s = .fault .pmemAddress

/-! ## Packed colour -/

/-- R151: `argb` is the shift-and-or of its channels. R152: decoding what was encoded gives the channels back, and
encoding what was decoded gives the word back. -/
def Obligations.PackedColorRoundTrips : Prop :=
  (∀ a r g b : Byte, argb a r g b =
    (a.setWidth 32 <<< 24 ||| r.setWidth 32 <<< 16 ||| g.setWidth 32 <<< 8 ||| b.setWidth 32)) ∧
  (∀ a r g b : Byte, chA (argb a r g b) = a ∧ chR (argb a r g b) = r ∧ chG (argb a r g b) = g ∧
    chB (argb a r g b) = b) ∧
  (∀ p : Word, argb (chA p) (chR p) (chG p) (chB p) = p)

/-- R153: with every latched channel in 0..255, PACK writes `a<<24 | r<<16 | g<<8 | b` to PK_OUT and completes (R165);
nothing else changes. -/
def Obligations.PackWritesPackedColor : Prop :=
  ∀ (s : State) (j : Latched), s.engine = some j →
    j.pkA.toNat ≤ 255 → j.pkR.toNat ≤ 255 → j.pkG.toNat ≤ 255 → j.pkB.toNat ≤ 255 →
    exec .pack s = .next { s with
      pkOut := j.pkA <<< 24 ||| j.pkR <<< 16 ||| j.pkG <<< 8 ||| j.pkB
      engine := none
      done := true }

/-- R153, R303: with a channel above 255, PACK still completes with no error; only PK_OUT, whose value is free, and the
model's own counter of draws (log entry 2) change besides. -/
def Obligations.PackOutOfRangeCompletes : Prop :=
  ∀ (s : State) (j : Latched), s.engine = some j →
    (255 < j.pkA.toNat ∨ 255 < j.pkR.toNat ∨ 255 < j.pkG.toNat ∨ 255 < j.pkB.toNat) →
    ∃ v d, exec .pack s = .next { s with pkOut := v, draws := d, engine := none, done := true }

/-- R154: UNPACK writes the four channels of the latched UP_IN, each by shift and mask (R150), and completes; nothing
else changes, and a host read of each output has bits [31:8] = 0. -/
def Obligations.UnpackExtractsChannels : Prop :=
  ∀ (s : State) (j : Latched), s.engine = some j →
    ∃ t, exec .unpack s = .next t ∧
      t = { s with upA := t.upA, upR := t.upR, upG := t.upG, upB := t.upB, engine := none, done := true } ∧
      readCsr t .upA = (j.upIn >>> 24) &&& 0xFF ∧ readCsr t .upR = (j.upIn >>> 16) &&& 0xFF ∧
      readCsr t .upG = (j.upIn >>> 8) &&& 0xFF ∧ readCsr t .upB = j.upIn &&& 0xFF

/-- R155: the host runs PACK on channels in 0..255, writes the PK_OUT it reads to UP_IN and runs UNPACK; UP_A to UP_B then
read as PK_A to PK_B. The recorded answer is the model's (log entries 5 and 18). -/
def Obligations.PackThenUnpackReturnsChannels : Prop :=
  ∀ s : State, s.engine = none →
    s.pkA.toNat ≤ 255 → s.pkR.toNat ≤ 255 → s.pkG.toNat ≤ 255 → s.pkB.toNat ≤ 255 →
    ∃ t u : State, runSteps 3 { s with events := [.host (.csrWrite 0x004 0x1), .engine, .host (.csrRead 0x034)] } = .next t ∧
      t.response = some ⟨false, some t.pkOut⟩ ∧
      runSteps 3 { t with events := [.host (.csrWrite 0x038 t.pkOut), .host (.csrWrite 0x004 0x2), .engine] } = .next u ∧
      readCsr u .upA = s.pkA ∧ readCsr u .upR = s.pkR ∧ readCsr u .upG = s.pkG ∧ readCsr u .upB = s.pkB ∧
      readCsr u .pkA = s.pkA ∧ readCsr u .pkR = s.pkR ∧ readCsr u .pkG = s.pkG ∧ readCsr u .pkB = s.pkB

/-! ## Box blur -/

/-- R202: for an in-bounds centre the window has `(min(x+k,W−1) − max(x−k,0) + 1)·(min(y+k,H−1) − max(y−k,0) + 1)` samples,
between 1 and N², and the sum of a channel over them is at most 6375. -/
def Obligations.WindowSampleCount : Prop :=
  ∀ (w h x y k : Nat) (f : Picture) (ch : Word → Byte), x < w → y < h → k = 1 ∨ k = 2 →
    (window w h x y k).length =
      (min (x + k) (w - 1) - (x - k) + 1) * (min (y + k) (h - 1) - (y - k) + 1) ∧
    1 ≤ (window w h x y k).length ∧ (window w h x y k).length ≤ (2 * k + 1) ^ 2 ∧
    channelSum ch ((window w h x y k).map fun p => f p.1 p.2) ≤ 6375

/-- R201: each of red, green and blue of the box average is the truncated mean of that channel over the in-bounds
neighbours, and alpha is the centre's own. -/
def Obligations.BoxAverageIsWindowMean : Prop :=
  ∀ (w h x y k : Nat) (f : Picture), x < w → y < h →
    let xs := Finset.Icc (x - k) (min (x + k) (w - 1))
    let ys := Finset.Icc (y - k) (min (y + k) (h - 1))
    chA (f.boxAvg w h x y k) = chA (f x y) ∧
    ∀ ch, ch = chR ∨ ch = chG ∨ ch = chB →
      (ch (f.boxAvg w h x y k)).toNat = (∑ ny ∈ ys, ∑ nx ∈ xs, (ch (f nx ny)).toNat) / (ys.card * xs.card)

/-- R203, R204: BLUR5 (k = 2) and BLUR3 (k = 1) write the box average of SRC, as it was, to every pixel of DST and complete;
every byte outside DST and every other register is unchanged. -/
def Obligations.BoxBlurWritesEveryPixel : Prop :=
  ∀ (s : State) (j : Latched) (i : Instr) (k : Nat), s.engine = some j →
    (i = .blur5 ∧ k = 2 ∨ i = .blur3 ∧ k = 1) →
    inRange s.addrW.words i j = true → aliasingViolation i j = false →
    ∃ m, exec i s = .next { s with pmem := m, engine := none, done := true } ∧
      (∀ x y, x < j.w.toNat → y < j.h.toNat → j.dstImage.pix m x y =
        (j.srcImage.picture s.pmem).boxAvg j.w.toNat j.h.toNat x y k) ∧
      ∀ a, ¬ j.dstImage.hasByte a → readByte m a = readByte s.pmem a

/-- R205 (a), (b), (c): a box average keeps the centre's alpha; on a window of equal pixels it is that pixel; each of its
channels lies between any bounds that hold for the channel in the window. -/
def Obligations.BoxAverageLaws : Prop :=
  ∀ (w h x y k : Nat) (f : Picture), x < w → y < h →
    chA (f.boxAvg w h x y k) = chA (f x y) ∧
    (∀ p, (∀ q ∈ window w h x y k, f q.1 q.2 = p) → f.boxAvg w h x y k = p) ∧
    ∀ ch, ch = chR ∨ ch = chG ∨ ch = chB → ∀ lo hi : Nat,
      (∀ q ∈ window w h x y k, lo ≤ (ch (f q.1 q.2)).toNat ∧ (ch (f q.1 q.2)).toNat ≤ hi) →
      lo ≤ (ch (f.boxAvg w h x y k)).toNat ∧ (ch (f.boxAvg w h x y k)).toNat ≤ hi

/-! ## Edge magnitude -/

/-- R9: `isqrt(n)` is the greatest m with m·m ≤ n. -/
def Obligations.IntegerSquareRoot : Prop :=
  ∀ n : Nat, isqrt n * isqrt n ≤ n ∧ ∀ m : Nat, m * m ≤ n → m ≤ isqrt n

/-- R224: below saturation the magnitude m is `sqrt(S)/Q` rounded half up, that is, the greatest integer m with
`m ≤ sqrt(S)/Q + 1/2`; it is 255 when that integer is 255 or more. -/
def Obligations.MagnitudeRoundsHalfUp : Prop :=
  ∀ (q m : Nat) (gx gy : Int), 1 ≤ q →
    magnitude q gx gy ≤ 255 ∧
    (m ≤ 255 → 1 ≤ m → (m ≤ magnitude q gx gy ↔
      ((2 * (m : Int) - 1) * q) * ((2 * (m : Int) - 1) * q) ≤ 4 * (gx * gx + gy * gy)))

/-- R226 with R221, R223, R225: SOBEL completes; every border pixel of DST is the SRC pixel (BZ = 0) or 0x00000000
(BZ = 1); every interior pixel is opaque gray of the rounded and saturated magnitude of (gx, gy); every byte outside DST
and every other register is unchanged. -/
def Obligations.SobelWritesEveryPixel : Prop :=
  ∀ (s : State) (j : Latched) (gm : GrayMode) (bz : BorderMode), s.engine = some j →
    inRange s.addrW.words (.sobel gm bz) j = true → aliasingViolation (.sobel gm bz) j = false →
    let f := j.srcImage.picture s.pmem
    let w := j.w.toNat
    let h := j.h.toNat
    ∃ m, exec (.sobel gm bz) s = .next { s with pmem := m, engine := none, done := true } ∧
      (∀ x y, x < w → y < h →
        (x = 0 ∨ y = 0 ∨ x = w - 1 ∨ y = h - 1 →
          j.dstImage.pix m x y = if bz = .copy then f x y else 0x00000000) ∧
        (1 ≤ x ∧ x ≤ w - 2 ∧ 1 ≤ y ∧ y ≤ h - 2 →
          let mag := min 255
            ((Nat.sqrt (4 * (f.gradX gm x y * f.gradX gm x y + f.gradY gm x y * f.gradY gm x y).toNat) + grayScale gm) /
              (2 * grayScale gm))
          (chA (j.dstImage.pix m x y)).toNat = 255 ∧ (chR (j.dstImage.pix m x y)).toNat = mag ∧
          (chG (j.dstImage.pix m x y)).toNat = mag ∧ (chB (j.dstImage.pix m x y)).toNat = mag)) ∧
      ∀ a, ¬ j.dstImage.hasByte a → readByte m a = readByte s.pmem a

/-- R221: the grayscale value of each mode, its scale, and what it gives on a gray pixel r = g = b = v. -/
def Obligations.GrayscaleFormulas : Prop :=
  (∀ a r g b : Byte,
    gray .lum (argb a r g b) = 2126 * r.toNat + 7152 * g.toNat + 722 * b.toNat ∧
    gray .mean (argb a r g b) = (r.toNat + g.toNat + b.toNat) / 3 ∧
    gray .lumt (argb a r g b) = (2126 * r.toNat + 7152 * g.toNat + 722 * b.toNat) / 10000) ∧
  (grayScale .lum = 10000 ∧ grayScale .mean = 1 ∧ grayScale .lumt = 1) ∧
  ∀ (gm : GrayMode) (a v : Byte), gray gm (argb a v v v) = grayScale gm * v.toNat

/-- R227 (a), (b), (d): on equal samples the interior output is 0xFF000000; every interior output is opaque with
r = g = b; it depends on the samples only through their grayscale values. -/
def Obligations.SobelInteriorLaws : Prop :=
  ∀ (gm : GrayMode) (src : Image) (m m' : Memory) (x y : Nat),
    1 ≤ x → x + 2 ≤ src.w → 1 ≤ y → y + 2 ≤ src.h →
    (∀ p, (∀ u v, u < src.w → v < src.h → src.pix m u v = p) → sobelInterior gm src m x y = 0xFF000000) ∧
    (chA (sobelInterior gm src m x y) = 255 ∧
      chR (sobelInterior gm src m x y) = chG (sobelInterior gm src m x y) ∧
      chG (sobelInterior gm src m x y) = chB (sobelInterior gm src m x y)) ∧
    ((∀ u v, u < src.w → v < src.h → gray gm (src.pix m u v) = gray gm (src.pix m' u v)) →
      sobelInterior gm src m x y = sobelInterior gm src m' x y)

/-! ## Pixelate -/

/-- R280: the blocks are disjoint and cover the image, and each holds a pixel: their pixels, listed block by block, are
the image's pixels, each once. -/
def Obligations.BlocksPartitionImage : Prop :=
  ∀ size w h : Nat, 1 ≤ size →
    List.Perm ((blocks size w h).flatMap Region.pixels) (Region.pixels ⟨0, 0, w, h⟩) ∧
    ∀ b ∈ blocks size w h, 1 ≤ b.w ∧ b.w ≤ size ∧ 1 ≤ b.h ∧ b.h ≤ size

/-- R282, in place and out of place: PIXELATE completes; every pixel of DST becomes opaque with red, green and blue the
truncated means of SRC, as it was, over the block that holds the pixel, whose size is S = PARAM, or 10 for PARAM = 0; every byte
outside DST and every other register is unchanged. -/
def Obligations.PixelateWritesBlockMeans : Prop :=
  ∀ (s : State) (j : Latched) (param : Nat), s.engine = some j →
    inRange s.addrW.words (.pixelate param) j = true → aliasingViolation (.pixelate param) j = false →
    let f := j.srcImage.picture s.pmem
    let w := j.w.toNat
    let h := j.h.toNat
    let size := if param = 0 then 10 else param
    ∃ m, exec (.pixelate param) s = .next { s with pmem := m, engine := none, done := true } ∧
      (∀ x y, x < w → y < h →
        let bx := x / size * size
        let yb := y / size * size
        let xs := Finset.Ico bx (min (bx + size) w)
        let ys := Finset.Ico yb (min (yb + size) h)
        chA (j.dstImage.pix m x y) = 255 ∧
        ∀ ch, ch = chR ∨ ch = chG ∨ ch = chB →
          (ch (j.dstImage.pix m x y)).toNat = (∑ ny ∈ ys, ∑ nx ∈ xs, (ch (f nx ny)).toNat) / (ys.card * xs.card)) ∧
      ∀ a, ¬ j.dstImage.hasByte a → readByte m a = readByte s.pmem a

/-- R283 (c): PIXELATE run with the same S on its own output gives that output again. The first run `j` is in place or out of
place; the second, `k`, reads the first run's DST, at the same size, and writes any legal DST: its DST holds the first run's DST
pixel for pixel, and where it runs in place every byte of PMEM stays as it was. -/
def Obligations.PixelateIsIdempotent : Prop :=
  ∀ (s : State) (j k : Latched) (param : Nat), s.engine = some j → k.src = j.dst → k.w = j.w → k.h = j.h →
    inRange s.addrW.words (.pixelate param) j = true → aliasingViolation (.pixelate param) j = false →
    inRange s.addrW.words (.pixelate param) k = true → aliasingViolation (.pixelate param) k = false →
    ∃ t u, exec (.pixelate param) s = .next t ∧ exec (.pixelate param) { t with engine := some k } = .next u ∧
      (∀ x y, x < j.w.toNat → y < j.h.toNat → k.dstImage.pix u.pmem x y = j.dstImage.pix t.pmem x y) ∧
      (k.dst = j.dst → ∀ a, readByte u.pmem a = readByte t.pmem a)

/-! ## Quadrant traversal -/

/-- R250: the quadrants of a region partition it: their pixels are the region's pixels, each once. -/
def Obligations.QuadrantsPartitionRegion : Prop :=
  ∀ r : Region,
    List.Perm (r.topLeft.pixels ++ r.topRight.pixels ++ r.bottomLeft.pixels ++ r.bottomRight.pixels) r.pixels

/-- R250, R251, R257: for dimensions of at most 16 bits and T ≥ 1 the traversal is the depth-first pre-order one, quadrants in
the order TL, TR, BL, BR; its bound of 17 levels cuts nothing off. -/
def Obligations.TraversalIsDepthFirstPreorder : Prop :=
  ∀ (t : Nat) (r : Region), 1 ≤ t → r.w < 2 ^ 16 → r.h < 2 ^ 16 →
    let hw := r.w / 2
    let hh := r.h / 2
    (r.w ≤ t ∨ r.h ≤ t → visit t traversalLevels r = [r]) ∧
    (¬ (r.w ≤ t ∨ r.h ≤ t) → visit t traversalLevels r = r ::
      (visit t traversalLevels ⟨r.x0, r.y0, hw, hh⟩ ++ visit t traversalLevels ⟨r.x0 + hw, r.y0, r.w - hw, hh⟩ ++
       visit t traversalLevels ⟨r.x0, r.y0 + hh, hw, r.h - hh⟩ ++
       visit t traversalLevels ⟨r.x0 + hw, r.y0 + hh, r.w - hw, r.h - hh⟩))

/-- R257: over a whole traversal RBLUR processes at most 17·W·H pixels, and the base regions hold each pixel of the image
exactly once, so RINVERT writes exactly W·H. -/
def Obligations.TraversalWorkIsBounded : Prop :=
  ∀ (t : Nat) (r : Region), 1 ≤ t → r.w < 2 ^ 16 → r.h < 2 ^ 16 →
    ((visit t traversalLevels r).map fun q => q.w * q.h).sum ≤ 17 * (r.w * r.h) ∧
    List.Perm (((visit t traversalLevels r).filter (·.isBase t)).flatMap Region.pixels) r.pixels

/-- R252, R254: RBLUR, in place and out of place, completes; DST holds SRC, as it was, with every region of the traversal
blurred in order, each blur reading the whole image as the earlier ones left it; only bytes of DST and SCR and the model's own
counter of draws (log entry 2) change besides. What SCR holds is not stated (U2). -/
def Obligations.RecursiveBlurCompounds : Prop :=
  ∀ (s : State) (j : Latched) (param : Nat), s.engine = some j →
    inRange s.addrW.words (.rblur param) j = true → aliasingViolation (.rblur param) j = false →
    let w := j.w.toNat
    let h := j.h.toNat
    let t := if param = 0 then 2 else param
    ∃ m d, exec (.rblur param) s = .next { s with pmem := m, draws := d, engine := none, done := true } ∧
      (∀ x y, x < w → y < h → j.dstImage.pix m x y =
        ((visit t traversalLevels ⟨0, 0, w, h⟩).foldl (Picture.blurRegion w h) (j.srcImage.picture s.pmem)) x y) ∧
      ∀ a, ¬ j.dstImage.hasByte a → ¬ j.scrImage.hasByte a → readByte m a = readByte s.pmem a

/-- R258 (a), (b), (c): RBLUR keeps every pixel's alpha; if W ≤ T or H ≤ T it gives the 3×3 box average of SRC; a uniform
image is unchanged. -/
def Obligations.RecursiveBlurLaws : Prop :=
  ∀ (s u : State) (j : Latched) (param : Nat), s.engine = some j →
    inRange s.addrW.words (.rblur param) j = true → aliasingViolation (.rblur param) j = false →
    exec (.rblur param) s = .next u →
    let w := j.w.toNat
    let h := j.h.toNat
    let t := if param = 0 then 2 else param
    let f := j.srcImage.picture s.pmem
    (∀ x y, x < w → y < h → chA (j.dstImage.pix u.pmem x y) = chA (f x y)) ∧
    (w ≤ t ∨ h ≤ t → ∀ x y, x < w → y < h → j.dstImage.pix u.pmem x y = f.boxAvg w h x y 1) ∧
    ∀ p, (∀ x y, x < w → y < h → f x y = p) → ∀ x y, x < w → y < h → j.dstImage.pix u.pmem x y = p

/-- R253: inversion is `p XOR 0x00FFFFFF`: 255 minus each of red, green and blue, alpha unchanged. -/
def Obligations.InvertPixelIsXor : Prop :=
  ∀ p : Word, invertPixel p = p ^^^ 0x00FFFFFF ∧ chA (invertPixel p) = chA p ∧
    (chR (invertPixel p)).toNat = 255 - (chR p).toNat ∧ (chG (invertPixel p)).toNat = 255 - (chG p).toNat ∧
    (chB (invertPixel p)).toNat = 255 - (chB p).toNat

/-- R255, R256 (a): RINVERT, in place and out of place, completes; for every threshold every pixel of DST is the inverse of
its SRC pixel as it was; every byte outside DST and every other register is unchanged. -/
def Obligations.RecursiveInvertInvertsEveryPixel : Prop :=
  ∀ (s : State) (j : Latched) (param : Nat), s.engine = some j →
    inRange s.addrW.words (.rinvert param) j = true → aliasingViolation (.rinvert param) j = false →
    ∃ m, exec (.rinvert param) s = .next { s with pmem := m, engine := none, done := true } ∧
      (∀ x y, x < j.w.toNat → y < j.h.toNat →
        j.dstImage.pix m x y = j.srcImage.pix s.pmem x y ^^^ 0x00FFFFFF) ∧
      ∀ a, ¬ j.dstImage.hasByte a → readByte m a = readByte s.pmem a

/-- R256 (b): RINVERT run twice in place restores every byte of pixel memory, whatever the two thresholds. -/
def Obligations.RecursiveInvertTwiceRestores : Prop :=
  ∀ (s : State) (j : Latched) (p q : Nat), s.engine = some j → j.src = j.dst →
    inRange s.addrW.words (.rinvert p) j = true →
    ∃ t u, exec (.rinvert p) s = .next t ∧ exec (.rinvert q) { t with engine := some j } = .next u ∧
      ∀ a, readByte u.pmem a = readByte s.pmem a

/-! ## Registers and ports -/

/-- R24: a host read of ID returns 0x50580007 in every state, busy or not, and a write to it changes nothing. The recorded
answer is the model's (log entries 5 and 18). -/
def Obligations.IdIsConstant : Prop :=
  ∀ (s : State) (v : Word) (rest : List Event),
    (s.events = .host (.csrRead 0x000) :: rest →
      step s = .next { s with events := rest, response := some ⟨false, some 0x50580007⟩ }) ∧
    (s.events = .host (.csrWrite 0x000 v) :: rest →
      step s = .next { s with events := rest, response := some ⟨false, none⟩ })

/-- R22 to R35: what a host read of each register returns, at its offset, in every state; a read changes nothing else. The
recorded answer is the model's (log entries 5 and 18). -/
def Obligations.RegistersReadAsMapped : Prop :=
  ∀ (s : State) (rest : List Event) (o : BitVec 12) (v : Word),
    (o, v) ∈ [((0x004 : BitVec 12), s.cmd), (0x00C, (BitVec.ofBool s.ie).setWidth 32), (0x010, s.width.setWidth 32),
      (0x014, s.height.setWidth 32), (0x018, s.srcBase), (0x01C, s.dstBase), (0x020, s.scrBase), (0x024, s.pkA),
      (0x028, s.pkR), (0x02C, s.pkG), (0x030, s.pkB), (0x034, s.pkOut), (0x038, s.upIn), (0x03C, s.upA.setWidth 32),
      (0x040, s.upR.setWidth 32), (0x044, s.upG.setWidth 32), (0x048, s.upB.setWidth 32)] →
    s.events = .host (.csrRead o) :: rest →
    step s = .next { s with events := rest, response := some ⟨false, some v⟩ }

/-- R27: STATUS reads BUSY, DONE, ERR and ACCERR in bits 0 to 3, ECODE in bits [7:4] and 0 above. The recorded answer is the
model's (log entries 5 and 18). -/
def Obligations.StatusReadsItsFields : Prop :=
  ∀ (s : State) (rest : List Event), s.events = .host (.csrRead 0x008) :: rest →
    ∃ v : Word, step s = .next { s with events := rest, response := some ⟨false, some v⟩ } ∧
      v.getLsbD 0 = s.busy ∧ v.getLsbD 1 = s.done ∧ v.getLsbD 2 = s.err ∧ v.getLsbD 3 = s.accErr ∧
      v.extractLsb' 4 4 = s.ecode ∧ v.extractLsb' 8 24 = 0

/-- R27: a host write of v to STATUS, busy or not, clears DONE if v[1], ERR and ECODE if v[2], ACCERR if v[3]; no other bit
of v and nothing else changes. The recorded answer is the model's (log entries 5 and 18). -/
def Obligations.StatusWriteOneClears : Prop :=
  ∀ (s : State) (v : Word) (rest : List Event), s.events = .host (.csrWrite 0x008 v) :: rest →
    step s = .next { s with
      events := rest
      response := some ⟨false, none⟩
      done := if v.getLsbD 1 then false else s.done
      err := if v.getLsbD 2 then false else s.err
      ecode := if v.getLsbD 2 then 0 else s.ecode
      accErr := if v.getLsbD 3 then false else s.accErr }

/-- R28: a host write of CTRL, busy or not, sets IE to bit 0 and changes nothing else. The recorded answer is the model's
(log entries 5 and 18). -/
def Obligations.CtrlWriteSetsInterruptEnable : Prop :=
  ∀ (s : State) (v : Word) (rest : List Event), s.events = .host (.csrWrite 0x00C v) :: rest →
    step s = .next { s with events := rest, response := some ⟨false, none⟩, ie := v.getLsbD 0 }

/-- R29, R30, R32, R34: a host write in IDLE of each operand register stores its field (WIDTH and HEIGHT 16 bits, the bases
ADDR_W bits, the others 32) and changes nothing else. The recorded answer is the model's (log entries 5 and 18). -/
def Obligations.OperandRegistersStoreTheirFields : Prop :=
  ∀ (s : State) (v : Word) (o : BitVec 12) (rest : List Event),
    s.engine = none → s.events = .host (.csrWrite o v) :: rest →
    let t := { s with events := rest, response := some ⟨false, none⟩ }
    (o = 0x010 → step s = .next { t with width := v.extractLsb' 0 16 }) ∧
    (o = 0x014 → step s = .next { t with height := v.extractLsb' 0 16 }) ∧
    (o = 0x018 → ∃ b, step s = .next { t with srcBase := b } ∧ b.toNat = v.toNat % 2 ^ s.addrW.val) ∧
    (o = 0x01C → ∃ b, step s = .next { t with dstBase := b } ∧ b.toNat = v.toNat % 2 ^ s.addrW.val) ∧
    (o = 0x020 → ∃ b, step s = .next { t with scrBase := b } ∧ b.toNat = v.toNat % 2 ^ s.addrW.val) ∧
    (o = 0x024 → step s = .next { t with pkA := v }) ∧ (o = 0x028 → step s = .next { t with pkR := v }) ∧
    (o = 0x02C → step s = .next { t with pkG := v }) ∧ (o = 0x030 → step s = .next { t with pkB := v }) ∧
    (o = 0x038 → step s = .next { t with upIn := v })

/-- R31: a host write of a busy-gated register while BUSY is ignored and sets ACCERR; a host read of any CSR offset, busy or
not, changes nothing but the model's record of the answer. The recorded answer is the model's (log entries 5 and 18). -/
def Obligations.BusyGateOnCsrPort : Prop :=
  ∀ (s : State) (o : BitVec 12) (v : Word) (rest : List Event),
    (s.busy = true → s.events = .host (.csrWrite o v) :: rest →
      o ∈ [(0x004 : BitVec 12), 0x010, 0x014, 0x018, 0x01C, 0x020, 0x024, 0x028, 0x02C, 0x030, 0x038] →
      step s = .next { s with events := rest, accErr := true, response := some ⟨false, none⟩ }) ∧
    (s.events = .host (.csrRead o) :: rest → ∃ r, step s = .next { s with events := rest, response := r })

/-- R23: an aligned offset from 0x04C on reads 0 and ignores writes, and the read-only registers ignore writes, with no side
effect and no error, busy or not. The recorded answer is the model's (log entries 5 and 18). -/
def Obligations.UnmappedAndReadOnlyOffsets : Prop :=
  ∀ (s : State) (o : BitVec 12) (v : Word) (rest : List Event), o.toNat % 4 = 0 →
    (0x04C ≤ o.toNat → s.events = .host (.csrRead o) :: rest →
      step s = .next { s with events := rest, response := some ⟨false, some 0⟩ }) ∧
    (0x04C ≤ o.toNat ∨ o ∈ [(0x000 : BitVec 12), 0x034, 0x03C, 0x040, 0x044, 0x048] →
      s.events = .host (.csrWrite o v) :: rest →
      step s = .next { s with events := rest, response := some ⟨false, none⟩ })

/-- R49: a misaligned CSR transaction gets an error response and has no effect; a read returns 0. The recorded answer is the
model's (log entries 5 and 18). -/
def Obligations.MisalignedCsrAccessHasNoEffect : Prop :=
  ∀ (s : State) (o : BitVec 12) (v : Word) (rest : List Event), o.toNat % 4 ≠ 0 →
    (s.events = .host (.csrRead o) :: rest →
      step s = .next { s with events := rest, response := some ⟨true, some 0⟩ }) ∧
    (s.events = .host (.csrWrite o v) :: rest →
      step s = .next { s with events := rest, response := some ⟨true, none⟩ })

/-- R47: while BUSY a host PMEM read returns 0 and a write is discarded, and either sets ACCERR; in IDLE a read returns the
word and changes nothing, and a write replaces that word and no other byte. `wa` is an address of ADDR_W bits. The recorded
answer is the model's (log entries 5 and 18). -/
def Obligations.PmemPortObeysBusyGate : Prop :=
  ∀ (s : State) (wa v : Word) (rest : List Event), wa.toNat < 2 ^ s.addrW.val →
    (s.events = .host (.pmemRead wa) :: rest →
      step s = .next (if s.busy then { s with events := rest, accErr := true, response := some ⟨false, some 0⟩ }
        else { s with events := rest, response := some ⟨false, some (readWord s.pmem wa.toNat)⟩ })) ∧
    (s.events = .host (.pmemWrite wa v) :: rest →
      (s.busy = true → step s = .next { s with events := rest, accErr := true, response := some ⟨false, none⟩ }) ∧
      (s.busy = false → ∃ m, step s = .next { s with events := rest, pmem := m, response := some ⟨false, none⟩ } ∧
        readWord m wa.toNat = v ∧
        ∀ a, a / 4 ≠ wa.toNat → readByte m a = readByte s.pmem a))

/-! ## Interrupt and reset -/

/-- R310: irq is IE AND DONE; with IE = 1 a completion and a rejection assert it, setting IE while DONE = 1 asserts it,
and a write of 1 to STATUS.DONE, a write of 0 to CTRL.IE and reset deassert it. -/
def Obligations.InterruptIsLevelOfDone : Prop :=
  (∀ s : State, irq s = (s.ie && s.done)) ∧
  (∀ s : State, s.ie = true → irq (complete s) = true) ∧
  (∀ (s : State) (e : ErrCode), s.ie = true → irq (reject e s) = true) ∧
  ∀ (s : State) (v : Word) (rest : List Event),
    (s.events = .host (.csrWrite 0x00C v) :: rest → ∃ t, step s = .next t ∧ irq t = (v.getLsbD 0 && s.done)) ∧
    (s.events = .host (.csrWrite 0x008 v) :: rest →
      ∃ t, step s = .next t ∧ irq t = (irq s && !v.getLsbD 1)) ∧
    (s.events = .reset :: rest → ∃ t, step s = .next t ∧ irq t = false)

/-- R340: after the reset input, in every state, ID reads 0x50580007, every other register reads 0, the engine is IDLE and irq
is deasserted. That ADDR_W and the events still to come stay is the model's (log entry 13). -/
def Obligations.ResetClearsEveryRegister : Prop :=
  ∀ (s : State) (rest : List Event), s.events = .reset :: rest →
    ∃ t, step s = .next t ∧ readCsr t .id = 0x50580007 ∧ (∀ r : Csr, r ≠ .id → readCsr t r = 0) ∧
      t.engine = none ∧ irq t = false ∧ t.addrW = s.addrW ∧ t.events = rest

/-- R343, R342: a reset in IDLE keeps every byte of PMEM; one in BUSY keeps every byte outside the buffers the abandoned
command writes (DST for an image command, and SCR for RBLUR), and DONE is not set. -/
def Obligations.ResetKeepsUnwrittenMemory : Prop :=
  ∀ (s : State) (rest : List Event), s.events = .reset :: rest →
    ∃ t, step s = .next t ∧ t.done = false ∧
      (s.engine = none → ∀ a, readByte t.pmem a = readByte s.pmem a) ∧
      (∀ j, s.engine = some j → ∀ a,
        (isImageCommand j.instr = true → ¬ j.dstImage.hasByte a) →
        ((∃ p, j.instr = .rblur p) → ¬ j.scrImage.hasByte a) →
        readByte t.pmem a = readByte s.pmem a)

/-- R340, R341, R344: the state right after power-on, for every ADDR_W: every register but ID reads 0, IE is 0, the engine is
IDLE, each PMEM word holds its free power-on value, and a CMD write is taken at once. `State.reset` is that state for the
ADDR_W of log entry 1. -/
def Obligations.PowerOnState : Prop :=
  State.reset = State.powerOn Config.resetAddrW ∧
  ∀ a : AddrW,
    (∀ r : Csr, r ≠ .id → readCsr (State.powerOn a) r = 0) ∧ readCsr (State.powerOn a) .id = 0x50580007 ∧
    (State.powerOn a).ie = false ∧ (State.powerOn a).engine = none ∧ (State.powerOn a).addrW = a ∧
    (∀ wa, readWord (State.powerOn a).pmem wa = Config.powerOnWord wa) ∧
    ∀ i : Instr, exec i (State.powerOn a) = .next { State.powerOn a with engine := some (latch i (State.powerOn a)) }

/-! ## The whole machine -/

/-- The invariant holds after reset, for every ADDR_W. -/
def Obligations.PowerOnSatisfiesInvariant : Prop :=
  ∀ a : AddrW, Inv (State.powerOn a)

/-- R166, R303: from every state that meets the invariant the step answers a next state (no fault, no refusal), and that
state meets the invariant. -/
def Obligations.StepKeepsInvariantAndNeverStops : Prop :=
  ∀ s : State, Inv s → ∃ t, step s = .next t ∧ Inv t

/-- R55: a command writes no byte of PMEM outside the buffers its rule names as written, none at all when it is issued, no
byte of SRC where SRC is another buffer than DST (its aliasing is legal, R168), and no register but PK_OUT (PACK), UP_A to
UP_B (UNPACK) and STATUS. That ADDR_W, the events still to come and the recorded answer stay is the model's (log entries 1,
4 and 5). -/
def Obligations.CommandWritesOnlyItsBuffers : Prop :=
  ∀ (i : Instr) (s t : State), exec i s = .next t →
    (∀ a, (∀ j, s.engine = some j → (isImageCommand i = true → ¬ j.dstImage.hasByte a) ∧
        ((∃ p, i = .rblur p) → ¬ j.scrImage.hasByte a)) → readByte t.pmem a = readByte s.pmem a) ∧
    (i = .pack ∨ i = .unpack ∨ s.engine = none → t.pmem = s.pmem) ∧
    (∀ j, s.engine = some j → isImageCommand i = true → aliasingViolation i j = false → j.src ≠ j.dst →
      ∀ a, j.srcImage.hasByte a → readByte t.pmem a = readByte s.pmem a) ∧
    (t.addrW = s.addrW ∧ t.cmd = s.cmd ∧ t.accErr = s.accErr ∧ t.ie = s.ie ∧ t.width = s.width ∧
      t.height = s.height ∧ t.srcBase = s.srcBase ∧ t.dstBase = s.dstBase ∧ t.scrBase = s.scrBase ∧ t.pkA = s.pkA ∧
      t.pkR = s.pkR ∧ t.pkG = s.pkG ∧ t.pkB = s.pkB ∧ t.upIn = s.upIn ∧ t.events = s.events ∧
      t.response = s.response) ∧
    (i ≠ .pack ∨ s.engine = none → t.pkOut = s.pkOut) ∧
    (i ≠ .unpack ∨ s.engine = none → t.upA = s.upA ∧ t.upR = s.upR ∧ t.upG = s.upG ∧ t.upB = s.upB)

/-- R171: the result of an accepted command depends only on its latched operands and the SRC words: two machines that agree
on those, whatever else they hold, end with the same DST words, and the same PK_OUT (channels in range) and UP_A to UP_B. -/
def Obligations.ResultDependsOnlyOnOperands : Prop :=
  ∀ (i : Instr) (s s' : State) (j : Latched), s.engine = some j → s'.engine = some j → s.addrW = s'.addrW →
    inRange s.addrW.words i j = true → aliasingViolation i j = false →
    (∀ x y, x < j.w.toNat → y < j.h.toNat → j.srcImage.pix s.pmem x y = j.srcImage.pix s'.pmem x y) →
    ∃ t t', exec i s = .next t ∧ exec i s' = .next t' ∧
      (isImageCommand i = true → ∀ x y, x < j.w.toNat → y < j.h.toNat →
        j.dstImage.pix t.pmem x y = j.dstImage.pix t'.pmem x y) ∧
      (i = .pack → channelsInRange j = true → t.pkOut = t'.pkOut) ∧
      (i = .unpack → t.upA = t'.upA ∧ t.upR = t'.upR ∧ t.upG = t'.upG ∧ t.upB = t'.upB)

/-- R350, R356, R53 (c): no host transaction between a command's acceptance and its completion changes what the command
does, and none changes PMEM or a result register: it changes STATUS, CTRL and the recorded answer only, and the command then
completes with the results it would have had without it. What SCR holds after RBLUR and PK_OUT after PACK with a channel out of
range are draws (U1, U2), of which nothing is stated. The recorded answer and the counter of draws are the model's (log entries
5 and 2). -/
def Obligations.HostCannotDisturbRunningCommand : Prop :=
  ∀ (s : State) (x : Txn) (j : Latched), s.engine = some j →
    ∃ s1, transact x s = .next s1 ∧ s1.engine = s.engine ∧ s1.pmem = s.pmem ∧ s1.draws = s.draws ∧
      s1 = { s with
        done := s1.done
        err := s1.err
        ecode := s1.ecode
        accErr := s1.accErr
        ie := s1.ie
        response := s1.response } ∧
      (∀ t, engineTurn s = .next t → ∃ t1, engineTurn s1 = .next t1 ∧
        (∀ a, ((∃ p, j.instr = .rblur p) → ¬ j.scrImage.hasByte a) → readByte t1.pmem a = readByte t.pmem a) ∧
        ((j.instr = .pack → channelsInRange j = true) → t1.pkOut = t.pkOut) ∧
        t1.upA = t.upA ∧ t1.upR = t.upR ∧ t1.upG = t.upG ∧ t1.upB = t.upB ∧ t1.engine = none ∧ t1.done = true)

/-- R27: BUSY changes only by the acceptance of a CMD write in IDLE, by the completion in a turn of the engine, and by
reset. -/
def Obligations.BusyChangesOnlyByLifecycle : Prop :=
  ∀ s t : State, step s = .next t → s.busy ≠ t.busy →
    (s.busy = false ∧ ∃ c rest, s.events = .host (.csrWrite 0x004 c) :: rest) ∨
    (s.busy = true ∧ t.done = true ∧ (s.events = [] ∨ ∃ rest, s.events = .engine :: rest)) ∨
    (s.busy = true ∧ ∃ rest, s.events = .reset :: rest)

/-- R166, R357: from a busy state that meets the invariant, with any host transactions but no reset to come, the completion
step is taken after at most one step more than there are events: the machine is then IDLE with DONE set. -/
def Obligations.AcceptedCommandCompletes : Prop :=
  ∀ s : State, Inv s → s.busy = true → (∀ e ∈ s.events, e ≠ .reset) →
    ∃ (n : Nat) (t : State), n ≤ s.events.length + 1 ∧ runSteps n s = .next t ∧ t.busy = false ∧ t.done = true

/-- R312, U14, P5: both orders of a completion and a host write are admitted, from every busy state. A CMD write of any word
ordered first is dropped and sets ACCERR; ordered after the completion it is issued: an illegal word is rejected with ERR_OPC (1)
or ERR_RSVD (2), a command that fails validation with that code, and a command that passes is accepted. A write of 1 to
STATUS.DONE ordered before the completion leaves DONE = 1, and ordered after it DONE = 0. The list of events is the model's (log
entry 4), and so is that every operand register is latched (log entry 9). -/
def Obligations.CompletionAndCmdWriteInBothOrders : Prop :=
  ∀ (s : State) (c v : Word), Inv s → s.busy = true →
    (∃ t, runSteps 2 { s with events := [.host (.csrWrite 0x004 c), .engine] } = .next t ∧
      t.cmd = s.cmd ∧ t.accErr = true ∧ t.err = s.err ∧ t.ecode = s.ecode ∧ t.busy = false ∧ t.done = true) ∧
    (∃ t, runSteps 2 { s with events := [.engine, .host (.csrWrite 0x004 c)] } = .next t ∧
      t.cmd = c ∧ t.accErr = s.accErr ∧ t.done = true ∧
      (∀ e, decode c = .error e → t.err = true ∧ t.ecode = (if e = .opc then 1 else 2) ∧ t.busy = false) ∧
      (∀ i, decode c = .ok i →
        (validate s.addrW.words i (latch i s) = some .range → t.err = true ∧ t.ecode = 3 ∧ t.busy = false) ∧
        (validate s.addrW.words i (latch i s) = some .overlap → t.err = true ∧ t.ecode = 4 ∧ t.busy = false) ∧
        (validate s.addrW.words i (latch i s) = none →
          t.engine = some (latch i s) ∧ t.err = s.err ∧ t.ecode = s.ecode))) ∧
    (v.getLsbD 1 = true →
      (∃ t, runSteps 2 { s with events := [.host (.csrWrite 0x008 v), .engine] } = .next t ∧
        t.busy = false ∧ t.done = true) ∧
      (∃ t, runSteps 2 { s with events := [.engine, .host (.csrWrite 0x008 v)] } = .next t ∧
        t.busy = false ∧ t.done = false))

/-- R43, R44, R48: a write of a PMEM word is read back, leaves every other byte as it was and keeps the canonical form; byte
lane k of a word is its bits [8k+7 : 8k], the byte at byte address 4·wa + k. -/
def Obligations.WordWriteIsReadBack : Prop :=
  ∀ (m : Memory) (wa : Nat) (v : Word),
    readWord (writeWord m wa v) wa = v ∧
    (∀ a, a / 4 ≠ wa → readByte (writeWord m wa v) a = readByte m a) ∧
    (m.wf = true → (writeWord m wa v).wf = true) ∧
    ∀ k, k < 4 → readByte m (4 * wa + k) = (readWord m wa).extractLsb' (8 * k) 8
end

