-- ==== Sys2Proof/Laws/Memory.lean ====
section
/-! SUPPORT. Pixel memory: a write is read back, leaves every other byte as it was, and keeps the canonical form and the
bound on addresses. -/

namespace Sys2Proof.Machine

/-! Bytes -/

@[simp] theorem find_put_same (m : Memory) (a : Nat) (v : Byte) : (m.put a v).find a = some v := by
  induction m with
  | nil => simp [Memory.put, Memory.find]
  | cons c rest ih =>
    simp only [Memory.put]
    split
    · rw [Memory.find, if_neg (by omega), ih]
    · split <;> simp [Memory.find]

theorem find_put_other (m : Memory) {a b : Nat} (v : Byte) (h : b ≠ a) : (m.put a v).find b = m.find b := by
  induction m with
  | nil => simp [Memory.put, Memory.find, Ne.symm h]
  | cons c rest ih =>
    simp only [Memory.put]
    split
    · simp only [Memory.find, ih]
    · split
      · rename_i h2
        simp only [Memory.find]
        rw [if_neg (Ne.symm h), if_neg (by omega)]
      · simp only [Memory.find]
        rw [if_neg (Ne.symm h)]

@[simp] theorem readByte_put_same (m : Memory) (a : Nat) (v : Byte) : readByte (m.put a v) a = v := by
  simp [readByte]

theorem readByte_put_other (m : Memory) {a b : Nat} (v : Byte) (h : b ≠ a) :
    readByte (m.put a v) b = readByte m b := by
  simp [readByte, find_put_other m v h]

/-! The canonical form and the bound on addresses -/

theorem put_wfFrom (m : Memory) (lo a : Nat) (v : Byte) (ha : lo ≤ a) (h : Memory.wfFrom lo m = true) :
    Memory.wfFrom lo (m.put a v) = true := by
  induction m generalizing lo with
  | nil => simp [Memory.put, Memory.wfFrom, ha]
  | cons c rest ih =>
    simp only [Memory.wfFrom, Bool.and_eq_true, decide_eq_true_eq] at h
    simp only [Memory.put]
    split
    · simp only [Memory.wfFrom, Bool.and_eq_true, decide_eq_true_eq]
      exact ⟨h.1, ih (c.1 + 1) (by omega) h.2⟩
    · split
      · rename_i hca
        simp only [Memory.wfFrom, Bool.and_eq_true, decide_eq_true_eq]
        exact ⟨ha, hca ▸ h.2⟩
      · simp only [Memory.wfFrom, Bool.and_eq_true, decide_eq_true_eq]
        exact ⟨ha, by omega, h.2⟩

theorem put_wf (m : Memory) (a : Nat) (v : Byte) (h : m.wf = true) : (m.put a v).wf = true :=
  put_wfFrom m 0 a v (Nat.zero_le a) h

/-- Every written byte is below an address. -/
def Memory.Below (m : Memory) (hi : Nat) : Prop := ∀ c ∈ m, c.1 < hi

theorem put_below (m : Memory) (hi a : Nat) (v : Byte) (ha : a < hi) (h : m.Below hi) : (m.put a v).Below hi := by
  intro c hc
  induction m with
  | nil => simp only [Memory.put, List.mem_singleton] at hc; subst hc; exact ha
  | cons d rest ih =>
    have hd : d.1 < hi := h d (by simp)
    have hr : ∀ c ∈ rest, c.1 < hi := fun c hc => h c (by simp [hc])
    simp only [Memory.put] at hc
    split at hc
    · rcases List.mem_cons.1 hc with rfl | hc
      · exact hd
      · exact ih hr hc
    · split at hc
      · rcases List.mem_cons.1 hc with rfl | hc
        · exact ha
        · exact hr c hc
      · rcases List.mem_cons.1 hc with rfl | hc
        · exact ha
        · exact h c hc

/-! Words -/

/-- A word is determined by its four byte lanes. -/
theorem readWord_congr {m m' : Memory} {wa : Nat} (h : ∀ a, a / 4 = wa → readByte m a = readByte m' a) :
    readWord m wa = readWord m' wa := by
  simp only [readWord]
  rw [h (4 * wa + 3) (by omega), h (4 * wa + 2) (by omega), h (4 * wa + 1) (by omega), h (4 * wa) (by omega)]

theorem lanes_append (v : Word) : lane v 3 ++ lane v 2 ++ lane v 1 ++ lane v 0 = v := by
  ext i hi
  simp only [lane, BitVec.getElem_append, BitVec.getElem_extractLsb']
  simp only [← BitVec.getLsbD_eq_getElem]
  split
  · congr 1; omega
  · split
    · congr 1; omega
    · split <;> (congr 1; omega)

theorem readWord_writeWord_same (m : Memory) (wa : Nat) (v : Word) : readWord (writeWord m wa v) wa = v := by
  simp only [readWord, writeWord]
  rw [readByte_put_same,
    readByte_put_other _ _ (by omega), readByte_put_same,
    readByte_put_other _ _ (by omega), readByte_put_other _ _ (by omega), readByte_put_same,
    readByte_put_other _ _ (by omega), readByte_put_other _ _ (by omega), readByte_put_other _ _ (by omega),
    readByte_put_same]
  exact lanes_append v

theorem readByte_writeWord_other (m : Memory) {wa a : Nat} (v : Word) (h : a / 4 ≠ wa) :
    readByte (writeWord m wa v) a = readByte m a := by
  simp only [writeWord]
  rw [readByte_put_other _ _ (by omega), readByte_put_other _ _ (by omega), readByte_put_other _ _ (by omega),
    readByte_put_other _ _ (by omega)]

theorem readWord_writeWord_other (m : Memory) {wa wb : Nat} (v : Word) (h : wb ≠ wa) :
    readWord (writeWord m wa v) wb = readWord m wb :=
  readWord_congr fun _ ha => readByte_writeWord_other m v (by omega)

theorem writeWord_wf (m : Memory) (wa : Nat) (v : Word) (h : m.wf = true) : (writeWord m wa v).wf = true := by
  simp only [writeWord]
  exact put_wf _ _ _ (put_wf _ _ _ (put_wf _ _ _ (put_wf _ _ _ h)))

theorem writeWord_below (m : Memory) (words wa : Nat) (v : Word) (hwa : wa < words) (h : m.Below (4 * words)) :
    (writeWord m wa v).Below (4 * words) := by
  simp only [writeWord]
  exact put_below _ _ _ _ (by omega) (put_below _ _ _ _ (by omega) (put_below _ _ _ _ (by omega)
    (put_below _ _ _ _ (by omega) h)))

/-- A word no lane of which has been written reads as its free power-on value (R341). -/
theorem readWord_nil (wa : Nat) : readWord [] wa = Config.powerOnWord wa := by
  simp only [readWord, readByte, Memory.find, Option.getD_none, unlistedByte]
  have h3 : (4 * wa + 3) / 4 = wa ∧ (4 * wa + 3) % 4 = 3 := by omega
  have h2 : (4 * wa + 2) / 4 = wa ∧ (4 * wa + 2) % 4 = 2 := by omega
  have h1 : (4 * wa + 1) / 4 = wa ∧ (4 * wa + 1) % 4 = 1 := by omega
  have h0 : (4 * wa) / 4 = wa ∧ (4 * wa) % 4 = 0 := by omega
  rw [h3.1, h3.2, h2.1, h2.2, h1.1, h1.2, h0.1, h0.2]
  exact lanes_append _

end Sys2Proof.Machine
end

