-- ==== Sys2Proof/Laws/Pixels.lean ====
section
/-! SUPPORT. Image buffers, regions and the loops over pixels: what a loop that writes one pixel after another leaves in
memory. -/

namespace Sys2Proof.Machine

/-! Addresses -/

theorem addr_bounds (i : Image) {x y : Nat} (hx : x < i.w) (hy : y < i.h) :
    i.base ≤ i.addr x y ∧ i.addr x y < i.base + i.size := by
  have : y * i.w + i.w ≤ i.h * i.w := by
    have := Nat.mul_le_mul_right i.w (Nat.succ_le_of_lt hy)
    rwa [Nat.succ_mul] at this
  have hc : i.w * i.h = i.h * i.w := Nat.mul_comm _ _
  simp only [Image.addr, Image.size]
  omega

theorem rowMajor_inj {w x y x' y' : Nat} (hx : x < w) (hx' : x' < w) (h : y * w + x = y' * w + x') :
    x = x' ∧ y = y' := by
  have h1 : (y * w + x) / w = y := by
    rw [Nat.mul_comm, Nat.mul_add_div (by omega), Nat.div_eq_of_lt hx, Nat.add_zero]
  have h2 : (y' * w + x') / w = y' := by
    rw [Nat.mul_comm, Nat.mul_add_div (by omega), Nat.div_eq_of_lt hx', Nat.add_zero]
  have : y = y' := by rw [← h1, ← h2, h]
  subst this
  exact ⟨by omega, rfl⟩

/-- Different pixels of a buffer are different words. -/
theorem addr_inj (i : Image) {x y x' y' : Nat} (hx : x < i.w) (hx' : x' < i.w) (h : i.addr x y = i.addr x' y') :
    x = x' ∧ y = y' :=
  rowMajor_inj hx hx' (by simp only [Image.addr] at h; omega)

/-- A byte outside a buffer is in none of its words. -/
theorem not_hasByte_iff (i : Image) (a : Nat) : ¬ i.hasByte a ↔ (a / 4 < i.base ∨ i.base + i.size ≤ a / 4) := by
  simp only [Image.hasByte]; omega

theorem ne_addr_of_not_hasByte (i : Image) {a x y : Nat} (h : ¬ i.hasByte a) (hx : x < i.w) (hy : y < i.h) :
    a / 4 ≠ i.addr x y := by
  have := addr_bounds i hx hy
  rw [not_hasByte_iff] at h
  omega

/-! Regions -/

theorem contains_iff (r : Region) (x y : Nat) :
    r.contains x y = true ↔ r.x0 ≤ x ∧ x < r.x0 + r.w ∧ r.y0 ≤ y ∧ y < r.y0 + r.h := by
  simp [Region.contains]

theorem mem_pixels (r : Region) (x y : Nat) : (x, y) ∈ r.pixels ↔ r.contains x y = true := by
  simp only [Region.pixels, Region.contains, List.mem_flatMap, List.mem_map, List.mem_range, Prod.mk.injEq,
    decide_eq_true_eq]
  constructor
  · rintro ⟨j, hj, i, hi, rfl, rfl⟩; omega
  · intro h; exact ⟨y - r.y0, by omega, x - r.x0, by omega, by omega, by omega⟩

theorem pixels_nodup (r : Region) : r.pixels.Nodup := by
  simp only [Region.pixels]
  rw [List.nodup_flatMap]
  refine ⟨fun j _ => ?_, ?_⟩
  · refine List.Nodup.map (fun a b h => ?_) List.nodup_range
    simp only [Prod.mk.injEq] at h; omega
  · refine List.Pairwise.imp_of_mem ?_ (List.nodup_range (n := r.h))
    intro j j' _ _ hne
    simp only [Function.onFun, List.disjoint_left, List.mem_map, List.mem_range]
    rintro ⟨a, b⟩ ⟨i, _, hi⟩ ⟨i', _, hi'⟩
    simp only [Prod.mk.injEq] at hi hi'
    omega

theorem length_pixels (r : Region) : r.pixels.length = r.w * r.h := by
  simp [Region.pixels, List.length_flatMap, Nat.mul_comm]

theorem mem_image_pixels (i : Image) (x y : Nat) : (x, y) ∈ i.region.pixels ↔ x < i.w ∧ y < i.h := by
  simp [mem_pixels, Region.contains, Image.region]

/-! Loops -/

@[simp] theorem forPixels_nil (f : Nat → Nat → Memory → Memory) (m : Memory) : forPixels [] f m = m := rfl

@[simp] theorem forPixels_cons (p : Nat × Nat) (ps : List (Nat × Nat)) (f : Nat → Nat → Memory → Memory) (m : Memory) :
    forPixels (p :: ps) f m = forPixels ps f (f p.1 p.2 m) := rfl

theorem forPixels_append (ps qs : List (Nat × Nat)) (f : Nat → Nat → Memory → Memory) (m : Memory) :
    forPixels (ps ++ qs) f m = forPixels qs f (forPixels ps f m) := by
  simp [forPixels, List.foldl_append]

/-- A property that each pixel's write keeps holds after the loop. -/
theorem forPixels_keeps {P : Memory → Prop} (ps : List (Nat × Nat)) (f : Nat → Nat → Memory → Memory) (m : Memory)
    (h : ∀ p ∈ ps, ∀ m, P m → P (f p.1 p.2 m)) (hm : P m) : P (forPixels ps f m) := by
  induction ps generalizing m with
  | nil => exact hm
  | cons p ps ih =>
    exact ih _ (fun q hq => h q (by simp [hq])) (h p (by simp) m hm)

theorem setPix_wf (i : Image) (x y : Nat) (v : Word) (m : Memory) (h : m.wf = true) : (i.setPix x y v m).wf = true :=
  writeWord_wf m _ v h

theorem setPix_below (i : Image) {words x y : Nat} (v : Word) (m : Memory) (hx : x < i.w) (hy : y < i.h)
    (hi : i.base + i.size ≤ words) (h : m.Below (4 * words)) : (i.setPix x y v m).Below (4 * words) :=
  writeWord_below m words _ v (by have := addr_bounds i hx hy; omega) h

theorem setPix_outside (i : Image) {x y a : Nat} (v : Word) (m : Memory) (h : a / 4 ≠ i.addr x y) :
    readByte (i.setPix x y v m) a = readByte m a :=
  readByte_writeWord_other m v h

theorem pix_setPix_same (i : Image) (x y : Nat) (v : Word) (m : Memory) : i.pix (i.setPix x y v m) x y = v :=
  readWord_writeWord_same m _ v

/-- A pixel reads the same in memories that agree on its word. -/
theorem pix_congr (i : Image) {m m' : Memory} {x y : Nat}
    (h : ∀ a, a / 4 = i.addr x y → readByte m a = readByte m' a) : i.pix m x y = i.pix m' x y :=
  readWord_congr h

/-- Two memories agree on every byte outside the words of some pixels of a buffer. -/
def AgreeOff (i : Image) (ps : List (Nat × Nat)) (m m' : Memory) : Prop :=
  ∀ a, (∀ p ∈ ps, a / 4 ≠ i.addr p.1 p.2) → readByte m a = readByte m' a

theorem AgreeOff.refl (i : Image) (ps : List (Nat × Nat)) (m : Memory) : AgreeOff i ps m m := fun _ _ => rfl

theorem AgreeOff.symm {i : Image} {ps : List (Nat × Nat)} {m m' : Memory} (h : AgreeOff i ps m m') :
    AgreeOff i ps m' m := fun a ha => (h a ha).symm

theorem AgreeOff.trans {i : Image} {ps : List (Nat × Nat)} {m m' m'' : Memory} (h : AgreeOff i ps m m')
    (h' : AgreeOff i ps m' m'') : AgreeOff i ps m m'' := fun a ha => (h a ha).trans (h' a ha)

theorem AgreeOff.mono {i : Image} {ps qs : List (Nat × Nat)} {m m' : Memory} (h : AgreeOff i ps m m')
    (hs : ∀ p ∈ ps, p ∈ qs) : AgreeOff i qs m m' := fun a ha => h a fun p hp => ha p (hs p hp)

theorem setPix_agreeOff (i : Image) (p : Nat × Nat) (ps : List (Nat × Nat)) (v : Word) (m : Memory) (hp : p ∈ ps) :
    AgreeOff i ps (i.setPix p.1 p.2 v m) m := fun _ ha => setPix_outside i v m (ha p hp)

/-- A loop of pixel writes changes only the words of its pixels. -/
theorem forPixels_agreeOff (i : Image) (ps : List (Nat × Nat)) (g : Nat → Nat → Memory → Word) (m : Memory) :
    AgreeOff i ps (forPixels ps (fun x y m => i.setPix x y (g x y m) m) m) m := by
  induction ps generalizing m with
  | nil => exact AgreeOff.refl _ _ _
  | cons p ps ih =>
    exact ((ih _).mono (fun q hq => by simp [hq])).trans (setPix_agreeOff i p _ _ m (by simp))

/-- The loop of pixel writes: over distinct pixels, where each value depends on no word that the loop writes for another
pixel, every pixel ends with its value in the memory as it was before the loop. -/
theorem pix_forPixels (i : Image) (ps : List (Nat × Nat)) (g : Nat → Nat → Memory → Word) (m : Memory)
    (hn : ps.Nodup) (hb : ∀ p ∈ ps, p.1 < i.w)
    (hg : ∀ p ∈ ps, ∀ m', AgreeOff i (ps.filter (· ≠ p)) m' m → g p.1 p.2 m' = g p.1 p.2 m) :
    ∀ p ∈ ps, i.pix (forPixels ps (fun x y m => i.setPix x y (g x y m) m) m) p.1 p.2 = g p.1 p.2 m := by
  induction ps generalizing m with
  | nil => intro p hp; simp at hp
  | cons q ps ih =>
    have hq : q ∉ ps := (List.nodup_cons.1 hn).1
    have hstep : AgreeOff i [q] (i.setPix q.1 q.2 (g q.1 q.2 m) m) m := setPix_agreeOff i q _ _ m (by simp)
    intro p hp
    rw [forPixels_cons]
    rcases List.mem_cons.1 hp with rfl | hp'
    · rw [pix_congr i (m' := i.setPix p.1 p.2 (g p.1 p.2 m) m), pix_setPix_same]
      intro a ha
      refine forPixels_agreeOff i ps g _ a fun r hr hra => hq ?_
      have := addr_inj i (hb p (by simp)) (hb r (by simp [hr])) (ha.symm.trans hra)
      rwa [show p = r from Prod.ext this.1 this.2]
    · have hpq : p ≠ q := fun e => hq (e ▸ hp')
      rw [ih _ (List.nodup_cons.1 hn).2 (fun r hr => hb r (by simp [hr])) ?_ p hp']
      · refine hg p hp _ (hstep.mono fun r hr => ?_)
        rw [List.mem_singleton] at hr; subst hr
        simp [Ne.symm hpq]
      · intro r hr m' hm'
        have hrq : r ≠ q := fun e => hq (e ▸ hr)
        have hsub : ∀ s ∈ ps.filter (· ≠ r), s ∈ (q :: ps).filter (· ≠ r) := by
          intro s hs; simp only [List.mem_filter] at hs ⊢; exact ⟨by simp [hs.1], hs.2⟩
        have hqs : ∀ s ∈ [q], s ∈ (q :: ps).filter (· ≠ r) := by
          intro s hs; rw [List.mem_singleton] at hs; subst hs; simp [Ne.symm hrq]
        rw [hg r (by simp [hr]) m' ((hm'.mono hsub).trans (hstep.mono hqs)),
          hg r (by simp [hr]) _ (hstep.mono hqs)]

/-! Bytes, words and pixels -/

/-- A byte is its lane of its word (R48). -/
theorem readByte_eq_lane (m : Memory) (a : Nat) : readByte m a = lane (readWord m (a / 4)) (a % 4) := by
  have hd := Nat.div_add_mod a 4
  have hm : a % 4 = 0 ∨ a % 4 = 1 ∨ a % 4 = 2 ∨ a % 4 = 3 := by omega
  have hl : ∀ b3 b2 b1 b0 : Byte, lane (b3 ++ b2 ++ b1 ++ b0) 0 = b0 ∧ lane (b3 ++ b2 ++ b1 ++ b0) 1 = b1 ∧
      lane (b3 ++ b2 ++ b1 ++ b0) 2 = b2 ∧ lane (b3 ++ b2 ++ b1 ++ b0) 3 = b3 := by
    intro b3 b2 b1 b0
    refine ⟨?_, ?_, ?_, ?_⟩ <;>
    · apply BitVec.eq_of_getLsbD_eq
      intro i hi
      simp only [lane, BitVec.getLsbD_extractLsb', BitVec.getLsbD_append]
      repeat' split
      all_goals first | omega | (simp only [hi, decide_true, Bool.true_and]; congr 1; omega)
  have h := hl (readByte m (4 * (a / 4) + 3)) (readByte m (4 * (a / 4) + 2)) (readByte m (4 * (a / 4) + 1))
    (readByte m (4 * (a / 4)))
  rw [readWord]
  rcases hm with e | e | e | e <;> rw [e] at hd ⊢
  · rw [h.1]; congr 1; omega
  · rw [h.2.1]; congr 1; omega
  · rw [h.2.2.1]; congr 1; omega
  · rw [h.2.2.2]; congr 1; omega

/-- Every byte of a buffer lies in the word of one of its pixels (R45). -/
theorem exists_pixel_of_hasByte (i : Image) {a : Nat} (h : i.hasByte a) :
    ∃ x y, x < i.w ∧ y < i.h ∧ a / 4 = i.addr x y := by
  simp only [Image.hasByte] at h
  have hw : 0 < i.w := by
    by_contra hc
    have hz : i.size = 0 := by simp [Image.size, show i.w = 0 by omega]
    omega
  have hd := Nat.div_add_mod (a / 4 - i.base) i.w
  rw [Nat.mul_comm] at hd
  refine ⟨(a / 4 - i.base) % i.w, (a / 4 - i.base) / i.w, Nat.mod_lt _ hw, ?_, ?_⟩
  · rw [Nat.div_lt_iff_lt_mul hw, Nat.mul_comm]
    simp only [Image.size] at h
    omega
  · simp only [Image.addr]; omega

/-- Memories that agree on a buffer's pixels and outside it agree. -/
theorem readByte_ext (i : Image) {m m' : Memory} (hp : ∀ x y, x < i.w → y < i.h → i.pix m x y = i.pix m' x y)
    (ho : ∀ a, ¬ i.hasByte a → readByte m a = readByte m' a) (a : Nat) : readByte m a = readByte m' a := by
  by_cases ha : i.hasByte a
  · obtain ⟨x, y, hx, hy, e⟩ := exists_pixel_of_hasByte i ha
    rw [readByte_eq_lane, readByte_eq_lane m', e]
    exact congrArg (lane · _) (hp x y hx hy)
  · exact ho a ha

/-! Sums -/

theorem sum_range_shift (f : Nat → Nat) (a n : Nat) :
    ((List.range n).map fun i => f (a + i)).sum = ∑ i ∈ Finset.Ico a (a + n), f i := by
  induction n with
  | zero => simp
  | succ n ih =>
    rw [List.range_succ, List.map_append, List.sum_append, ih, ← Nat.add_assoc, Finset.sum_Ico_succ_top (by omega)]
    simp

/-- A sum over the pixels of a region, row by row. -/
theorem sum_pixels (r : Region) (f : Nat → Nat → Nat) :
    (r.pixels.map fun p => f p.1 p.2).sum =
      ∑ y ∈ Finset.Ico r.y0 (r.y0 + r.h), ∑ x ∈ Finset.Ico r.x0 (r.x0 + r.w), f x y := by
  have key : ∀ js : List Nat, ((js.flatMap fun j => (List.range r.w).map fun i => (r.x0 + i, r.y0 + j)).map
      fun p => f p.1 p.2).sum = (js.map fun j => ∑ x ∈ Finset.Ico r.x0 (r.x0 + r.w), f x (r.y0 + j)).sum := by
    intro js
    induction js with
    | nil => rfl
    | cons j js ih =>
      rw [List.flatMap_cons, List.map_append, List.sum_append, ih, List.map_cons, List.sum_cons,
        ← sum_range_shift (fun x => f x (r.y0 + j)), List.map_map]
      rfl
  rw [Region.pixels, key, sum_range_shift (fun y => ∑ x ∈ Finset.Ico r.x0 (r.x0 + r.w), f x y)]

end Sys2Proof.Machine
end

