-- ==== Sys2Proof/Laws/Convolution.lean ====
section
/-! SUPPORT. How two buffers relate, the window as a clipped rectangle, the mean of some samples, and what the box blur leaves
in memory. -/

namespace Sys2Proof.Machine

/-! Buffers of one command -/

/-- No pixel of `src` is a word of `dst`. -/
def Apart (src dst : Image) : Prop :=
  ∀ x y x' y', x < src.w → y < src.h → x' < dst.w → y' < dst.h → src.addr x y ≠ dst.addr x' y'

/-- The only pixel of `src` that is the word of a pixel of `dst` is the one at the same coordinates. -/
def Aligned (src dst : Image) : Prop :=
  ∀ x y x' y', x < src.w → y < src.h → x' < dst.w → y' < dst.h → src.addr x y = dst.addr x' y' → x = x' ∧ y = y'

theorem Apart.aligned {src dst : Image} (h : Apart src dst) : Aligned src dst :=
  fun x y x' y' hx hy hx' hy' e => absurd e (h x y x' y' hx hy hx' hy')

theorem Apart.symm {src dst : Image} (h : Apart src dst) : Apart dst src :=
  fun x y x' y' hx hy hx' hy' e => h x' y' x y hx' hy' hx hy e.symm

theorem apart_of_not_overlaps {src dst : Image} (h : src.overlaps dst = false) : Apart src dst := by
  intro x y x' y' hx hy hx' hy' e
  have h1 := addr_bounds src hx hy
  have h2 := addr_bounds dst hx' hy'
  simp only [Image.overlaps, decide_eq_false_iff_not, not_and] at h
  exact h (by omega) (by omega) (by omega) (by omega)

theorem overlaps_comm (i k : Image) : i.overlaps k = k.overlaps i := by
  simp only [Image.overlaps, decide_eq_decide]
  omega

theorem aligned_self (i : Image) : Aligned i i := fun _ _ _ _ hx _ hx' _ e => addr_inj i hx hx' e

theorem apart_of_not_alias {j : Latched} (h : j.srcImage.overlaps j.dstImage = false) :
    Apart j.srcImage j.dstImage := apart_of_not_overlaps h

theorem aligned_of_not_partialOverlap {j : Latched} (h : partialOverlap j = false) :
    Aligned j.srcImage j.dstImage := by
  simp only [partialOverlap, Bool.and_eq_false_iff] at h
  rcases h with h | h
  · have e : j.src = j.dst := by simpa using h
    have : j.srcImage = j.dstImage := by simp [Latched.srcImage, Latched.dstImage, e]
    rw [this]; exact aligned_self _
  · exact (apart_of_not_overlaps h).aligned

/-- Writes to pixels of a buffer apart from `src` leave every pixel of `src`. -/
theorem pix_of_apart {src dst : Image} (h : Apart src dst) {ps : List (Nat × Nat)}
    (hps : ∀ p ∈ ps, p.1 < dst.w ∧ p.2 < dst.h) {m m' : Memory} (hm : AgreeOff dst ps m' m) {x y : Nat}
    (hx : x < src.w) (hy : y < src.h) : src.pix m' x y = src.pix m x y :=
  pix_congr src fun a ha => hm a fun p hp e => h x y p.1 p.2 hx hy (hps p hp).1 (hps p hp).2 (ha.symm.trans e)

/-- Writes to pixels of a buffer aligned with `src` leave the pixels of `src` at other coordinates. -/
theorem pix_of_aligned {src dst : Image} (h : Aligned src dst) {ps : List (Nat × Nat)}
    (hps : ∀ p ∈ ps, p.1 < dst.w ∧ p.2 < dst.h) {m m' : Memory} (hm : AgreeOff dst ps m' m) {x y : Nat}
    (hx : x < src.w) (hy : y < src.h) (hxy : (x, y) ∉ ps) : src.pix m' x y = src.pix m x y := by
  refine pix_congr src fun a ha => hm a fun p hp e => hxy ?_
  have := h x y p.1 p.2 hx hy (hps p hp).1 (hps p hp).2 (ha.symm.trans e)
  rwa [show (x, y) = p from Prod.ext this.1 this.2]

/-! The window -/

theorem mem_offsets (k : Nat) (d : Int) : d ∈ offsets k ↔ -(k : Int) ≤ d ∧ d ≤ k := by
  simp only [offsets, List.mem_map, List.mem_range]
  constructor
  · rintro ⟨n, hn, rfl⟩; omega
  · intro h; exact ⟨(d + k).toNat, by omega, by omega⟩

theorem offsets_nodup (k : Nat) : (offsets k).Nodup := by
  refine List.Nodup.map (fun a b h => ?_) List.nodup_range
  have h' : (a : Int) - k = (b : Int) - k := h
  omega

/-- The samples of a window are its in-bounds coordinates (R200). -/
theorem mem_window (w h x y k nx ny : Nat) :
    (nx, ny) ∈ window w h x y k ↔ nx < w ∧ ny < h ∧ x ≤ nx + k ∧ nx ≤ x + k ∧ y ≤ ny + k ∧ ny ≤ y + k := by
  simp only [window, List.mem_flatMap, List.mem_filterMap, mem_offsets, neighbour]
  constructor
  · rintro ⟨dy, hdy, dx, hdx, e⟩
    split at e
    · rename_i hb
      simp only [Option.some.injEq, Prod.mk.injEq] at e
      obtain ⟨rfl, rfl⟩ := e
      refine ⟨?_, ?_, ?_, ?_, ?_, ?_⟩ <;> omega
    · simp at e
  · intro hh
    refine ⟨(ny : Int) - y, by omega, (nx : Int) - x, by omega, ?_⟩
    rw [if_pos (by omega)]
    simp only [Option.some.injEq, Prod.mk.injEq]; omega

theorem window_nodup (w h x y k : Nat) : (window w h x y k).Nodup := by
  rw [window, List.nodup_flatMap]
  constructor
  · intro dy _
    refine List.Nodup.filterMap ?_ (offsets_nodup k)
    intro a b c ha hb
    simp only [neighbour, Option.mem_def] at ha hb
    split at ha
    · split at hb
      · have e := (Option.some.inj ha).trans (Option.some.inj hb).symm
        simp only [Prod.mk.injEq] at e
        omega
      · simp at hb
    · simp at ha
  · refine List.Pairwise.imp_of_mem ?_ (offsets_nodup k)
    intro d d' _ _ hne
    simp only [Function.onFun, List.disjoint_left, List.mem_filterMap]
    rintro ⟨a, b⟩ ⟨e, _, he⟩ ⟨e', _, he'⟩
    simp only [neighbour] at he he'
    split at he
    · split at he'
      · have e := (Option.some.inj he).trans (Option.some.inj he').symm
        simp only [Prod.mk.injEq] at e
        omega
      · simp at he'
    · simp at he

/-- The window of an in-bounds centre as a rectangle clipped to the image. -/
def clippedWindow (w h x y k : Nat) : Region :=
  ⟨x - k, y - k, min (x + k) (w - 1) - (x - k) + 1, min (y + k) (h - 1) - (y - k) + 1⟩

theorem window_perm (w h x y k : Nat) (hx : x < w) (hy : y < h) :
    List.Perm (window w h x y k) (clippedWindow w h x y k).pixels := by
  refine (List.perm_ext_iff_of_nodup (window_nodup _ _ _ _ _) (pixels_nodup _)).2 ?_
  rintro ⟨nx, ny⟩
  rw [mem_window, mem_pixels, contains_iff]
  simp only [clippedWindow]
  omega

theorem length_window_pos (w h x y k : Nat) (hx : x < w) (hy : y < h) : 0 < (window w h x y k).length :=
  List.length_pos_of_mem ((mem_window w h x y k x y).2 (by omega))

/-! Sums and means -/

theorem channelSum_perm (ch : Word → Byte) {qs rs : List Word} (h : List.Perm qs rs) :
    channelSum ch qs = channelSum ch rs := (h.map _).sum_eq

theorem sum_le_of_forall_le {l : List Nat} {hi : Nat} (h : ∀ v ∈ l, v ≤ hi) : l.sum ≤ l.length * hi := by
  induction l with
  | nil => simp
  | cons v l ih =>
    have := ih fun v hv => h v (by simp [hv])
    have := h v (by simp)
    simp only [List.sum_cons, List.length_cons, Nat.succ_mul]; omega

theorem le_sum_of_forall_le {l : List Nat} {lo : Nat} (h : ∀ v ∈ l, lo ≤ v) : l.length * lo ≤ l.sum := by
  induction l with
  | nil => simp
  | cons v l ih =>
    have := ih fun v hv => h v (by simp [hv])
    have := h v (by simp)
    simp only [List.sum_cons, List.length_cons, Nat.succ_mul]; omega

theorem channelSum_le (ch : Word → Byte) (qs : List Word) : channelSum ch qs ≤ qs.length * 255 := by
  have := sum_le_of_forall_le (l := qs.map fun q => (ch q).toNat) (hi := 255) (by
    intro v hv
    obtain ⟨q, -, rfl⟩ := List.mem_map.1 hv
    have := (ch q).isLt; omega)
  simpa [channelSum] using this

/-- A mean of channel values is itself a channel value, so nothing wraps (R156, R201). -/
theorem meanByte_toNat (ch : Word → Byte) (qs : List Word) :
    (meanByte (channelSum ch qs) qs.length).toNat = channelSum ch qs / qs.length := by
  have h := channelSum_le ch qs
  have : channelSum ch qs / qs.length ≤ 255 := by
    rcases Nat.eq_zero_or_pos qs.length with h0 | h0
    · simp [h0]
    · exact Nat.div_le_of_le_mul h
  simp only [meanByte, BitVec.toNat_ofNat]
  exact Nat.mod_eq_of_lt (by omega)

@[simp] theorem chA_argb (a r g b : Byte) : chA (argb a r g b) = a := by
  ext i hi
  simp only [chA, argb, BitVec.getElem_extractLsb', BitVec.getLsbD_append]
  simp only [← BitVec.getLsbD_eq_getElem]
  rw [if_neg (by omega), if_neg (by omega), if_neg (by omega)]
  congr 1; omega

@[simp] theorem chR_argb (a r g b : Byte) : chR (argb a r g b) = r := by
  ext i hi
  simp only [chR, argb, BitVec.getElem_extractLsb', BitVec.getLsbD_append]
  simp only [← BitVec.getLsbD_eq_getElem]
  rw [if_neg (by omega), if_neg (by omega), if_pos (by omega)]
  congr 1; omega

@[simp] theorem chG_argb (a r g b : Byte) : chG (argb a r g b) = g := by
  ext i hi
  simp only [chG, argb, BitVec.getElem_extractLsb', BitVec.getLsbD_append]
  simp only [← BitVec.getLsbD_eq_getElem]
  rw [if_neg (by omega), if_pos (by omega)]
  congr 1; omega

@[simp] theorem chB_argb (a r g b : Byte) : chB (argb a r g b) = b := by
  ext i hi
  simp only [chB, argb, BitVec.getElem_extractLsb', BitVec.getLsbD_append]
  simp only [← BitVec.getLsbD_eq_getElem]
  rw [if_pos (by omega)]
  congr 1; omega

/-- Two words with the same channels are the same word. -/
theorem word_ext {p q : Word} (hA : chA p = chA q) (hR : chR p = chR q) (hG : chG p = chG q) (hB : chB p = chB q) :
    p = q := by
  have key : ∀ v : Word, argb (chA v) (chR v) (chG v) (chB v) = v := by
    intro v
    exact lanes_append v
  rw [← key p, ← key q, hA, hR, hG, hB]

/-! The box average and the box blur -/

theorem boxAvg_eq_picture (i : Image) (m : Memory) (x y k : Nat) :
    boxAvg i m x y k = (i.picture m).boxAvg i.w i.h x y k := rfl

/-- The box average depends only on the in-bounds pixels of the picture. -/
theorem picture_boxAvg_congr {f g : Picture} {w h : Nat} (hfg : ∀ u v, u < w → v < h → f u v = g u v) {x y k : Nat}
    (hx : x < w) (hy : y < h) : f.boxAvg w h x y k = g.boxAvg w h x y k := by
  simp only [Picture.boxAvg, hfg x y hx hy]
  congr 1
  refine List.map_congr_left fun p hp => ?_
  have := (mem_window w h x y k p.1 p.2).1 hp
  exact hfg _ _ this.1 this.2.1

/-- Writing box averages of one buffer to a region's pixels in another: each pixel gets its average in the memory as it was. -/
theorem pix_forPixels_boxAvg {src dst : Image} (hap : Apart src dst) (k : Nat) (ps : List (Nat × Nat)) (m : Memory)
    (hn : ps.Nodup) (hb : ∀ p ∈ ps, p.1 < dst.w ∧ p.2 < dst.h) (hs : ∀ p ∈ ps, p.1 < src.w ∧ p.2 < src.h) :
    ∀ p ∈ ps, dst.pix (forPixels ps (fun x y m => dst.setPix x y (boxAvg src m x y k) m) m) p.1 p.2 =
      (src.picture m).boxAvg src.w src.h p.1 p.2 k := by
  intro p hp
  refine (pix_forPixels dst ps (fun x y m => boxAvg src m x y k) m hn (fun p hp => (hb p hp).1) ?_ p hp)
  intro q hq m' hm'
  simp only [boxAvg_eq_picture]
  refine picture_boxAvg_congr (fun u v hu hv => ?_) (hs q hq).1 (hs q hq).2
  exact pix_of_apart hap (fun r hr => hb r (List.mem_filter.1 hr).1) hm' hu hv

theorem agreeOff_outside {i : Image} {ps : List (Nat × Nat)} {m m' : Memory} (h : AgreeOff i ps m' m)
    (hb : ∀ p ∈ ps, p.1 < i.w ∧ p.2 < i.h) {a : Nat} (ha : ¬ i.hasByte a) : readByte m' a = readByte m a :=
  h a fun p hp => ne_addr_of_not_hasByte i ha (hb p hp).1 (hb p hp).2

theorem boxBlur_outside (src dst : Image) (k : Nat) (m : Memory) {a : Nat} (ha : ¬ dst.hasByte a) :
    readByte (boxBlur src dst k m) a = readByte m a :=
  agreeOff_outside (forPixels_agreeOff dst _ (fun x y m => boxAvg src m x y k) m)
    (fun p hp => (mem_image_pixels dst p.1 p.2).1 hp) ha

theorem pix_boxBlur {src dst : Image} (hap : Apart src dst) (hw : src.w = dst.w) (hh : src.h = dst.h) (k : Nat)
    (m : Memory) {x y : Nat} (hx : x < dst.w) (hy : y < dst.h) :
    dst.pix (boxBlur src dst k m) x y = (src.picture m).boxAvg src.w src.h x y k :=
  pix_forPixels_boxAvg hap k _ m (pixels_nodup _) (fun p hp => (mem_image_pixels dst p.1 p.2).1 hp)
    (fun p hp => by rw [hw, hh]; exact (mem_image_pixels dst p.1 p.2).1 hp) (x, y)
    ((mem_image_pixels dst x y).2 ⟨hx, hy⟩)

end Sys2Proof.Machine
end

