-- ==== Sys2Proof/Laws/EdgeMagnitude.lean ====
section
/-! SUPPORT. The integer square root, the Sobel sums at an interior pixel, and what SOBEL leaves in memory. -/

namespace Sys2Proof.Machine

theorem isqrtBits_lower (n b r : Nat) (h : r * r ≤ n) : isqrtBits n b r * isqrtBits n b r ≤ n := by
  induction b generalizing r with
  | zero => exact h
  | succ b ih =>
    simp only [isqrtBits]
    split
    · rename_i h2; exact ih _ h2
    · exact ih _ h

theorem isqrtBits_upper (n b r : Nat) (h : n < (r + 2 ^ b) * (r + 2 ^ b)) :
    n < (isqrtBits n b r + 1) * (isqrtBits n b r + 1) := by
  induction b generalizing r with
  | zero => simpa [isqrtBits] using h
  | succ b ih =>
    simp only [isqrtBits]
    split
    · refine ih _ ?_
      rwa [Nat.add_assoc, ← Nat.two_mul, ← Nat.pow_succ']
    · exact ih _ (by omega)

/-- The loop's result is the integer square root of the library. -/
theorem isqrt_eq_sqrt (n : Nat) : isqrt n = Nat.sqrt n := by
  have hu : n < (isqrt n + 1) * (isqrt n + 1) := by
    refine isqrtBits_upper n _ 0 ?_
    rcases Nat.eq_zero_or_pos n with rfl | hn
    · simp
    · have h1 : n < 2 ^ (n.log2 + 1) := Nat.lt_log2_self
      have h2 : 2 ^ (n.log2 + 1) ≤ 2 ^ ((n.log2 / 2 + 1) + (n.log2 / 2 + 1)) :=
        Nat.pow_le_pow_right (by omega) (by omega)
      rw [Nat.zero_add, ← Nat.pow_add]
      omega
  have hl : isqrt n * isqrt n ≤ n := isqrtBits_lower n _ 0 (Nat.zero_le n)
  exact (Nat.eq_sqrt.2 ⟨hl, hu⟩)

/-- The offsets of the 3×3 window, listed (R222). -/
theorem offsets_one : offsets 1 = [-1, 0, 1] := by decide

/-- At an interior pixel the kernel sums are those written out from the matrices Gx and Gy (R222, R223). -/
theorem gradient_interior (gm : GrayMode) (src : Image) (m : Memory) {x y : Nat} (hx : 1 ≤ x) (hy : 1 ≤ y) :
    gradient kernelX (graySample gm src m x y) = (src.picture m).gradX gm x y ∧
    gradient kernelY (graySample gm src m x y) = (src.picture m).gradY gm x y := by
  have hx1 : ((x : Int) + -1).toNat = x - 1 := by omega
  have hx0 : ((x : Int) + 0).toNat = x := by omega
  have hx2 : ((x : Int) + 1).toNat = x + 1 := by omega
  have hy1 : ((y : Int) + -1).toNat = y - 1 := by omega
  have hy0 : ((y : Int) + 0).toNat = y := by omega
  have hy2 : ((y : Int) + 1).toNat = y + 1 := by omega
  constructor
  · simp only [gradient, offsets_one, List.map_cons, List.map_nil, List.sum_cons, List.sum_nil, kernelX, graySample,
      hx1, hx0, hx2, hy1, hy0, hy2, Picture.gradX, Picture.gray, Image.picture]
    norm_num
    ring
  · simp only [gradient, offsets_one, List.map_cons, List.map_nil, List.sum_cons, List.sum_nil, kernelY, graySample,
      hx1, hx0, hx2, hy1, hy0, hy2, Picture.gradY, Picture.gray, Image.picture]
    norm_num
    ring

theorem magnitude_le (q : Nat) (gx gy : Int) : magnitude q gx gy ≤ 255 := Nat.min_le_left _ _

/-- The output of SOBEL at a pixel depends only on the in-bounds pixels of SRC. -/
theorem sobelPixel_congr (gm : GrayMode) (bz : BorderMode) (src : Image) {m m' : Memory}
    (h : ∀ u v, u < src.w → v < src.h → src.pix m u v = src.pix m' u v) {x y : Nat} (hx : x < src.w) (hy : y < src.h) :
    sobelPixel gm bz src m x y = sobelPixel gm bz src m' x y := by
  by_cases hb : isBorder src.w src.h x y = true
  · simp only [sobelPixel, hb, if_true]
    cases bz
    · exact h x y hx hy
    · rfl
  · have hi : 1 ≤ x ∧ 1 ≤ y ∧ x + 1 < src.w ∧ y + 1 < src.h := by
      simp only [isBorder, decide_eq_true_eq] at hb; omega
    have key : ∀ u v, u < src.w → v < src.h → (src.picture m).gray gm u v = (src.picture m').gray gm u v := by
      intro u v hu hv
      simp only [Picture.gray, Image.picture, h u v hu hv]
    have hX : (src.picture m).gradX gm x y = (src.picture m').gradX gm x y := by
      simp only [Picture.gradX]
      rw [key _ _ (by omega) (by omega), key (x + 1) y (by omega) (by omega), key (x + 1) (y + 1) (by omega) (by omega),
        key (x - 1) (y - 1) (by omega) (by omega), key (x - 1) y (by omega) (by omega),
        key (x - 1) (y + 1) (by omega) (by omega)]
    have hY : (src.picture m).gradY gm x y = (src.picture m').gradY gm x y := by
      simp only [Picture.gradY]
      rw [key _ _ (by omega) (by omega), key x (y + 1) (by omega) (by omega), key (x + 1) (y + 1) (by omega) (by omega),
        key (x - 1) (y - 1) (by omega) (by omega), key x (y - 1) (by omega) (by omega),
        key (x + 1) (y - 1) (by omega) (by omega)]
    simp only [sobelPixel, hb, if_false, sobelInterior, Bool.false_eq_true]
    rw [(gradient_interior gm src m hi.1 hi.2.1).1, (gradient_interior gm src m hi.1 hi.2.1).2,
      (gradient_interior gm src m' hi.1 hi.2.1).1, (gradient_interior gm src m' hi.1 hi.2.1).2, hX, hY]

theorem sobelImage_outside (gm : GrayMode) (bz : BorderMode) (src dst : Image) (m : Memory) {a : Nat}
    (ha : ¬ dst.hasByte a) : readByte (sobelImage gm bz src dst m) a = readByte m a :=
  agreeOff_outside (forPixels_agreeOff dst _ (fun x y m => sobelPixel gm bz src m x y) m)
    (fun p hp => (mem_image_pixels dst p.1 p.2).1 hp) ha

theorem pix_sobelImage (gm : GrayMode) (bz : BorderMode) {src dst : Image} (hap : Apart src dst) (hw : src.w = dst.w)
    (hh : src.h = dst.h) (m : Memory) {x y : Nat} (hx : x < dst.w) (hy : y < dst.h) :
    dst.pix (sobelImage gm bz src dst m) x y = sobelPixel gm bz src m x y := by
  have hb : ∀ p ∈ dst.region.pixels, p.1 < dst.w ∧ p.2 < dst.h := fun p hp => (mem_image_pixels dst p.1 p.2).1 hp
  refine pix_forPixels dst _ (fun x y m => sobelPixel gm bz src m x y) m (pixels_nodup _) (fun p hp => (hb p hp).1) ?_
    (x, y) ((mem_image_pixels dst x y).2 ⟨hx, hy⟩)
  intro q hq m' hm'
  refine sobelPixel_congr gm bz src (fun u v hu hv => ?_) (hw ▸ (hb q hq).1) (hh ▸ (hb q hq).2)
  exact pix_of_apart hap (fun r hr => hb r (List.mem_filter.1 hr).1) hm' hu hv

end Sys2Proof.Machine
end

