-- ==== Sys2Proof/Laws/Quadrant.lean ====
section
/-! SUPPORT. The quadrant traversal: its regions, and what RBLUR and RINVERT leave in memory for a list of regions. -/

namespace Sys2Proof.Machine

/-! The traversal -/

theorem visit_base (t n : Nat) {r : Region} (h : r.isBase t = true) : visit t n r = [r] := by
  cases n <;> simp [visit, h]

theorem visit_split (t n : Nat) {r : Region} (h : r.isBase t = false) :
    visit t (n + 1) r = r :: (visit t n r.topLeft ++ visit t n r.topRight ++ visit t n r.bottomLeft ++
      visit t n r.bottomRight) := by
  simp [visit, h]

/-- Levels enough to halve both dimensions down to 1 cut nothing off the traversal (R257). -/
theorem visit_succ {t : Nat} (ht : 1 ≤ t) (n : Nat) {r : Region} (hw : r.w ≤ 2 ^ n) (hh : r.h ≤ 2 ^ n) :
    visit t (n + 1) r = visit t n r := by
  induction n generalizing r with
  | zero =>
    have hb : r.isBase t = true := by simp only [Region.isBase, decide_eq_true_eq]; omega
    rw [visit_base _ _ hb, visit_base _ _ hb]
  | succ n ih =>
    cases hb : r.isBase t with
    | true => rw [visit_base _ _ hb, visit_base _ _ hb]
    | false =>
      rw [pow_succ] at hw hh
      rw [visit_split _ (n + 1) hb, visit_split _ n hb, ih, ih, ih, ih] <;>
        simp only [Region.topLeft, Region.topRight, Region.bottomLeft, Region.bottomRight] <;> omega

theorem mem_visit_self (t n : Nat) (r : Region) : r ∈ visit t n r := by
  cases n with
  | zero => simp [visit]
  | succ n => simp only [visit]; split <;> simp

/-- One region lies inside another. -/
def Region.Inside (q r : Region) : Prop := ∀ x y, q.contains x y = true → r.contains x y = true

theorem topLeft_inside (r : Region) : r.topLeft.Inside r := by
  intro x y h
  rw [contains_iff] at h ⊢
  simp only [Region.topLeft] at h
  omega

theorem topRight_inside (r : Region) : r.topRight.Inside r := by
  intro x y h
  rw [contains_iff] at h ⊢
  simp only [Region.topRight] at h
  omega

theorem bottomLeft_inside (r : Region) : r.bottomLeft.Inside r := by
  intro x y h
  rw [contains_iff] at h ⊢
  simp only [Region.bottomLeft] at h
  omega

theorem bottomRight_inside (r : Region) : r.bottomRight.Inside r := by
  intro x y h
  rw [contains_iff] at h ⊢
  simp only [Region.bottomRight] at h
  omega

/-- Every region of a traversal lies inside its root. -/
theorem visit_inside (t n : Nat) (r : Region) : ∀ q ∈ visit t n r, q.Inside r := by
  induction n generalizing r with
  | zero =>
    intro q hq
    simp only [visit, List.mem_singleton] at hq
    subst hq; exact fun _ _ h => h
  | succ n ih =>
    intro q hq
    simp only [visit] at hq
    split at hq
    · rw [List.mem_singleton] at hq; subst hq; exact fun _ _ h => h
    · simp only [List.mem_cons, List.mem_append] at hq
      rcases hq with rfl | ((hq | hq) | hq) | hq
      · exact fun _ _ h => h
      · exact fun x y h => topLeft_inside r x y (ih _ q hq x y h)
      · exact fun x y h => topRight_inside r x y (ih _ q hq x y h)
      · exact fun x y h => bottomLeft_inside r x y (ih _ q hq x y h)
      · exact fun x y h => bottomRight_inside r x y (ih _ q hq x y h)

theorem visitImage_in_bounds (t : Nat) (i : Image) {q : Region} (hq : q ∈ visitImage t i) :
    ∀ p ∈ q.pixels, p.1 < i.w ∧ p.2 < i.h := by
  rintro ⟨x, y⟩ hp
  rw [mem_pixels] at hp
  have := visit_inside t _ _ q hq x y hp
  rw [contains_iff] at this
  simp only [Image.region] at this
  show x < i.w ∧ y < i.h
  omega

theorem blurThreshold_pos (param : Nat) : 1 ≤ blurThreshold param := by
  simp only [blurThreshold, effective]; split <;> omega

theorem invertThreshold_pos (param : Nat) : 1 ≤ invertThreshold param := by
  simp only [invertThreshold, effective]; split <;> omega

/-! Loops over regions -/

/-- A loop over the pixels of one region after another is one loop over all their pixels. -/
theorem foldl_forPixels (rs : List Region) (f : Nat → Nat → Memory → Memory) (m : Memory) :
    rs.foldl (fun m r => forPixels r.pixels f m) m = forPixels (rs.flatMap Region.pixels) f m := by
  induction rs generalizing m with
  | nil => rfl
  | cons r rs ih => rw [List.foldl_cons, ih, List.flatMap_cons, forPixels_append]

theorem foldl_invertRegion (src dst : Image) (rs : List Region) (m : Memory) :
    rs.foldl (invertRegion src dst) m =
      forPixels (rs.flatMap Region.pixels) (fun x y m => dst.setPix x y (invertPixel (src.pix m x y)) m) m :=
  foldl_forPixels rs _ m

/-- Inverting distinct pixels, in place too: each becomes the inverse of its SRC pixel as it was (R255). -/
theorem pix_invertPixels {src dst : Image} (hal : Aligned src dst) (ps : List (Nat × Nat)) (m : Memory) (hn : ps.Nodup)
    (hb : ∀ p ∈ ps, p.1 < dst.w ∧ p.2 < dst.h) (hs : ∀ p ∈ ps, p.1 < src.w ∧ p.2 < src.h) :
    ∀ p ∈ ps, dst.pix (forPixels ps (fun x y m => dst.setPix x y (invertPixel (src.pix m x y)) m) m) p.1 p.2 =
      invertPixel (src.pix m p.1 p.2) := by
  intro p hp
  refine pix_forPixels dst ps (fun x y m => invertPixel (src.pix m x y)) m hn (fun p hp => (hb p hp).1) ?_ p hp
  intro q hq m' hm'
  refine congrArg invertPixel (pix_of_aligned hal (fun r hr => hb r (List.mem_filter.1 hr).1) hm' (hs q hq).1 (hs q hq).2 ?_)
  simp

/-- Copying a region between buffers apart: each of its pixels is the source's as it was. -/
theorem pix_copyRegion {src dst : Image} (hap : Apart src dst) (r : Region) (m : Memory)
    (hb : ∀ p ∈ r.pixels, p.1 < dst.w ∧ p.2 < dst.h) (hs : ∀ p ∈ r.pixels, p.1 < src.w ∧ p.2 < src.h) :
    ∀ p ∈ r.pixels, dst.pix (copyRegion src dst r m) p.1 p.2 = src.pix m p.1 p.2 := by
  intro p hp
  refine pix_forPixels dst _ (fun x y m => src.pix m x y) m (pixels_nodup r) (fun p hp => (hb p hp).1) ?_ p hp
  intro q hq m' hm'
  exact pix_of_apart hap (fun s hs' => hb s (List.mem_filter.1 hs').1) hm' (hs q hq).1 (hs q hq).2

theorem copyRegion_agreeOff (src dst : Image) (r : Region) (m : Memory) :
    AgreeOff dst r.pixels (copyRegion src dst r m) m :=
  forPixels_agreeOff dst _ (fun x y m => src.pix m x y) m

theorem blurToScratch_agreeOff (img scr : Image) (r : Region) (m : Memory) :
    AgreeOff scr r.pixels (blurToScratch img scr r m) m :=
  forPixels_agreeOff scr _ (fun x y m => boxAvg img m x y 1) m

/-- A region blur writes no byte outside the working image and the scratch buffer (R254). -/
theorem blurRegion_outside (img scr : Image) (r : Region) (m : Memory)
    (hi : ∀ p ∈ r.pixels, p.1 < img.w ∧ p.2 < img.h) (hs : ∀ p ∈ r.pixels, p.1 < scr.w ∧ p.2 < scr.h) {a : Nat}
    (hai : ¬ img.hasByte a) (has : ¬ scr.hasByte a) : readByte (blurRegion img scr m r) a = readByte m a := by
  rw [blurRegion, agreeOff_outside (copyRegion_agreeOff scr img r _) hi hai,
    agreeOff_outside (blurToScratch_agreeOff img scr r m) hs has]

/-- One region blur, on the picture the working image holds (R254): the region's pixels become their box averages in the
picture as it was, and no other pixel changes. -/
theorem pix_blurRegion {img scr : Image} (hap : Apart img scr) (r : Region) (m : Memory)
    (hi : ∀ p ∈ r.pixels, p.1 < img.w ∧ p.2 < img.h) (hs : ∀ p ∈ r.pixels, p.1 < scr.w ∧ p.2 < scr.h) {x y : Nat}
    (hx : x < img.w) (hy : y < img.h) :
    img.pix (blurRegion img scr m r) x y = (img.picture m).blurRegion img.w img.h r x y := by
  have ha := blurToScratch_agreeOff img scr r m
  simp only [Picture.blurRegion]
  by_cases hc : r.contains x y = true
  · have hp : (x, y) ∈ r.pixels := (mem_pixels r x y).2 hc
    rw [if_pos hc, blurRegion, pix_copyRegion hap.symm r _ hi hs (x, y) hp]
    exact pix_forPixels_boxAvg hap 1 _ m (pixels_nodup r) hs hi (x, y) hp
  · rw [if_neg hc]
    have hne : (x, y) ∉ r.pixels := fun h => hc ((mem_pixels r x y).1 h)
    rw [blurRegion, pix_of_aligned (aligned_self img) hi (copyRegion_agreeOff scr img r _) hx hy hne,
      pix_of_apart hap hs ha hx hy]
    rfl

theorem picture_blurRegion_congr {f g : Picture} {w h : Nat} (hfg : ∀ u v, u < w → v < h → f u v = g u v) (r : Region)
    {x y : Nat} (hx : x < w) (hy : y < h) : f.blurRegion w h r x y = g.blurRegion w h r x y := by
  simp only [Picture.blurRegion]
  split
  · exact picture_boxAvg_congr hfg hx hy
  · exact hfg x y hx hy

theorem foldl_picture_blurRegion_congr {w h : Nat} (rs : List Region) {f g : Picture}
    (hfg : ∀ u v, u < w → v < h → f u v = g u v) {x y : Nat} (hx : x < w) (hy : y < h) :
    rs.foldl (Picture.blurRegion w h) f x y = rs.foldl (Picture.blurRegion w h) g x y := by
  induction rs generalizing f g with
  | nil => exact hfg x y hx hy
  | cons r rs ih => exact ih fun u v hu hv => picture_blurRegion_congr hfg r hu hv

/-- Region blurs one after another compound on the picture the working image holds (R252, R254). -/
theorem pix_foldl_blurRegion {img scr : Image} (hap : Apart img scr) (rs : List Region) (m : Memory)
    (hi : ∀ r ∈ rs, ∀ p ∈ r.pixels, p.1 < img.w ∧ p.2 < img.h)
    (hs : ∀ r ∈ rs, ∀ p ∈ r.pixels, p.1 < scr.w ∧ p.2 < scr.h) {x y : Nat} (hx : x < img.w) (hy : y < img.h) :
    img.pix (rs.foldl (blurRegion img scr) m) x y = rs.foldl (Picture.blurRegion img.w img.h) (img.picture m) x y := by
  induction rs generalizing m with
  | nil => rfl
  | cons r rs ih =>
    rw [List.foldl_cons, List.foldl_cons, ih _ (fun q hq => hi q (by simp [hq])) fun q hq => hs q (by simp [hq])]
    exact foldl_picture_blurRegion_congr rs
      (fun u v hu hv => pix_blurRegion hap r m (hi r (by simp)) (hs r (by simp)) hu hv) hx hy

theorem foldl_blurRegion_outside (img scr : Image) (rs : List Region) (m : Memory)
    (hi : ∀ r ∈ rs, ∀ p ∈ r.pixels, p.1 < img.w ∧ p.2 < img.h)
    (hs : ∀ r ∈ rs, ∀ p ∈ r.pixels, p.1 < scr.w ∧ p.2 < scr.h) {a : Nat}
    (hai : ¬ img.hasByte a) (has : ¬ scr.hasByte a) : readByte (rs.foldl (blurRegion img scr) m) a = readByte m a := by
  induction rs generalizing m with
  | nil => rfl
  | cons r rs ih =>
    rw [List.foldl_cons, ih _ (fun q hq => hi q (by simp [hq])) fun q hq => hs q (by simp [hq])]
    exact blurRegion_outside img scr r m (hi r (by simp)) (hs r (by simp)) hai has

/-! Draws -/

/-- Draws written to a buffer change no byte outside it. -/
theorem scramble_outside (i : Image) (d : Nat) (m : Memory) {a : Nat} (ha : ¬ i.hasByte a) :
    readByte (scramble i.base i.size d m) a = readByte m a := by
  have key : ∀ (ns : List Nat) (m : Memory), (∀ n ∈ ns, n < i.size) →
      readByte (ns.foldl (fun m n => writeWord m (i.base + n) (Config.freeWord (d + n))) m) a = readByte m a := by
    intro ns
    induction ns with
    | nil => intro m _; rfl
    | cons n ns ih =>
      intro m hns
      have hn := hns n (by simp)
      rw [List.foldl_cons, ih _ fun k hk => hns k (by simp [hk])]
      refine readByte_writeWord_other m _ ?_
      rw [not_hasByte_iff] at ha
      omega
  exact key _ m fun n hn => List.mem_range.1 hn

/-- Loading the working image changes nothing outside DST (R252). -/
theorem loadWorking_outside (src dst : Image) (m : Memory) {a : Nat} (ha : ¬ dst.hasByte a) :
    readByte (loadWorking src dst m) a = readByte m a := by
  simp only [loadWorking]
  split
  · exact agreeOff_outside (copyRegion_agreeOff src dst _ m) (fun p hp => (mem_image_pixels dst p.1 p.2).1 hp) ha
  · rfl

/-- After loading, the working image holds SRC as it was, whether in place or not (R252). -/
theorem pix_loadWorking {src dst : Image} (hap : src.base ≠ dst.base → Apart src dst) (hw : src.w = dst.w)
    (hh : src.h = dst.h) (m : Memory) {x y : Nat} (hx : x < dst.w) (hy : y < dst.h) :
    dst.pix (loadWorking src dst m) x y = src.pix m x y := by
  simp only [loadWorking]
  split
  · rename_i hne
    have hb : ∀ p ∈ dst.region.pixels, p.1 < dst.w ∧ p.2 < dst.h := fun p hp => (mem_image_pixels dst p.1 p.2).1 hp
    exact pix_copyRegion (hap hne) dst.region m hb (fun p hp => by rw [hw, hh]; exact hb p hp) (x, y)
      ((mem_image_pixels dst x y).2 ⟨hx, hy⟩)
  · rename_i he
    simp only [ne_eq, not_not] at he
    simp only [Image.pix, Image.addr, he, hw]

end Sys2Proof.Machine
end

