-- ==== Sys2Proof/Laws/Quantizer.lean ====
section
/-! SUPPORT. The blocks of an image and what PIXELATE leaves in memory. -/

namespace Sys2Proof.Machine

theorem mem_blockStarts {size : Nat} (hs : 1 ≤ size) (n b : Nat) :
    b ∈ blockStarts size n ↔ b < n ∧ b % size = 0 := by
  simp only [blockStarts, List.mem_map, List.mem_range]
  constructor
  · rintro ⟨q, hq, rfl⟩
    have hq' := (Nat.le_div_iff_mul_le (by omega)).1 (Nat.succ_le_of_lt hq)
    rw [Nat.succ_mul] at hq'
    exact ⟨by omega, Nat.mul_mod_left q size⟩
  · rintro ⟨hb, hm⟩
    have hd := Nat.div_add_mod b size
    refine ⟨b / size, ?_, ?_⟩
    · refine Nat.lt_of_succ_le ((Nat.le_div_iff_mul_le (by omega)).2 ?_)
      rw [Nat.succ_mul, Nat.mul_comm]
      omega
    · rw [Nat.mul_comm]; omega

theorem mem_blocks {size : Nat} (hs : 1 ≤ size) (w h : Nat) (b : Region) :
    b ∈ blocks size w h ↔ ∃ bx yb, bx < w ∧ bx % size = 0 ∧ yb < h ∧ yb % size = 0 ∧ b = block size w h bx yb := by
  simp only [blocks, List.mem_flatMap, List.mem_map, mem_blockStarts hs]
  constructor
  · rintro ⟨yb, ⟨h1, h2⟩, bx, ⟨h3, h4⟩, rfl⟩; exact ⟨bx, yb, h3, h4, h1, h2, rfl⟩
  · rintro ⟨bx, yb, h3, h4, h1, h2, rfl⟩; exact ⟨yb, ⟨h1, h2⟩, bx, ⟨h3, h4⟩, rfl⟩

theorem blockStarts_nodup {size : Nat} (hs : 1 ≤ size) (n : Nat) : (blockStarts size n).Nodup :=
  List.Nodup.map (fun _ _ h => Nat.eq_of_mul_eq_mul_right hs h) List.nodup_range

/-- The block that holds a pixel starts at the pixel's coordinates rounded down (R280). -/
theorem start_of_mem_block {size w h bx yb x y : Nat} (hx0 : bx % size = 0) (hy0 : yb % size = 0)
    (hc : (block size w h bx yb).contains x y = true) : bx = x / size * size ∧ yb = y / size * size := by
  rw [contains_iff] at hc
  simp only [block] at hc
  have key : ∀ b v : Nat, b % size = 0 → b ≤ v → v < b + size → b = v / size * size := by
    intro b v hb h1 h2
    have hd := Nat.div_add_mod b size
    rw [hb, Nat.add_zero] at hd
    have : v / size = b / size := by
      rw [Nat.div_eq_iff (by omega)]
      rw [Nat.mul_comm] at hd
      omega
    rw [this, Nat.mul_comm]; omega
  exact ⟨key bx x hx0 (by omega) (by omega), key yb y hy0 (by omega) (by omega)⟩

theorem blocks_disjoint {size : Nat} (hs : 1 ≤ size) (w h : Nat) :
    (blocks size w h).Pairwise fun b c => List.Disjoint b.pixels c.pixels := by
  have hn : (blocks size w h).Nodup := by
    rw [blocks, List.nodup_flatMap]
    refine ⟨fun yb _ => List.Nodup.map (fun a b hab => ?_) (blockStarts_nodup hs w), ?_⟩
    · exact congrArg Region.x0 hab
    · refine List.Pairwise.imp_of_mem ?_ (blockStarts_nodup hs h)
      intro j j' _ _ hne
      simp only [Function.onFun, List.disjoint_left, List.mem_map]
      rintro r ⟨i, _, hi⟩ ⟨i', _, hi'⟩
      exact hne (congrArg Region.y0 (hi.trans hi'.symm))
  refine List.Pairwise.imp_of_mem ?_ hn
  intro b c hb hc hne
  obtain ⟨bx, yb, -, h1, -, h2, rfl⟩ := (mem_blocks hs w h b).1 hb
  obtain ⟨cx, cy, -, h3, -, h4, rfl⟩ := (mem_blocks hs w h c).1 hc
  rw [List.disjoint_left]
  rintro ⟨x, y⟩ hp hq
  rw [mem_pixels] at hp hq
  have e1 := start_of_mem_block h1 h2 hp
  have e2 := start_of_mem_block h3 h4 hq
  exact hne (by rw [e1.1, e1.2, e2.1, e2.2])

theorem block_in_bounds {size : Nat} (hs : 1 ≤ size) {w h : Nat} {b : Region} (hb : b ∈ blocks size w h) :
    ∀ p ∈ b.pixels, p.1 < w ∧ p.2 < h := by
  obtain ⟨bx, yb, _, _, _, _, rfl⟩ := (mem_blocks hs w h b).1 hb
  rintro ⟨x, y⟩ hp
  rw [mem_pixels, contains_iff] at hp
  simp only [block] at hp
  show x < w ∧ y < h
  omega

/-- Every in-bounds pixel is in the block that starts at its coordinates rounded down (R280). -/
theorem mem_own_block {size : Nat} (hs : 1 ≤ size) {w h x y : Nat} (hx : x < w) (hy : y < h) :
    block size w h (x / size * size) (y / size * size) ∈ blocks size w h ∧
    (x, y) ∈ (block size w h (x / size * size) (y / size * size)).pixels := by
  have hdx := Nat.div_add_mod x size
  have hdy := Nat.div_add_mod y size
  have hmx := Nat.mod_lt x (show 0 < size by omega)
  have hmy := Nat.mod_lt y (show 0 < size by omega)
  rw [Nat.mul_comm] at hdx hdy
  refine ⟨(mem_blocks hs w h _).2 ⟨_, _, by omega, Nat.mul_mod_left _ _, by omega, Nat.mul_mod_left _ _, rfl⟩, ?_⟩
  rw [mem_pixels, contains_iff]
  simp only [block]
  omega

theorem blockAvg_congr (src : Image) {m m' : Memory} (b : Region)
    (h : ∀ p ∈ b.pixels, src.pix m p.1 p.2 = src.pix m' p.1 p.2) : blockAvg src m b = blockAvg src m' b := by
  simp only [blockAvg]
  congr 1
  exact List.map_congr_left h

theorem pixelateBlock_agreeOff (src dst : Image) (m : Memory) (b : Region) :
    AgreeOff dst b.pixels (pixelateBlock src dst m b) m :=
  forPixels_agreeOff dst _ (fun _ _ _ => blockAvg src m b) m

theorem foldl_pixelateBlock_agreeOff (src dst : Image) (bs : List Region) (m : Memory) :
    AgreeOff dst (bs.flatMap Region.pixels) (bs.foldl (pixelateBlock src dst) m) m := by
  induction bs generalizing m with
  | nil => exact AgreeOff.refl _ _ _
  | cons b bs ih =>
    rw [List.foldl_cons]
    refine ((ih _).mono fun p hp => ?_).trans ((pixelateBlock_agreeOff src dst m b).mono fun p hp => ?_)
    · rw [List.flatMap_cons]; exact List.mem_append_right _ hp
    · rw [List.flatMap_cons]; exact List.mem_append_left _ hp

/-- Blocks that share no pixel, quantized one after another: each pixel ends as the average of its block in the memory as it
was, in place too (R282). -/
theorem pix_foldl_pixelateBlock {src dst : Image} (hal : Aligned src dst) (hw : src.w = dst.w) (hh : src.h = dst.h)
    (bs : List Region) (m : Memory) (hb : ∀ b ∈ bs, ∀ p ∈ b.pixels, p.1 < dst.w ∧ p.2 < dst.h)
    (hd : bs.Pairwise fun b c => List.Disjoint b.pixels c.pixels) :
    ∀ b ∈ bs, ∀ p ∈ b.pixels, dst.pix (bs.foldl (pixelateBlock src dst) m) p.1 p.2 = blockAvg src m b := by
  induction bs generalizing m with
  | nil => intro b hb; simp at hb
  | cons c bs ih =>
    intro b hbm p hp
    obtain ⟨hc, hd'⟩ := List.pairwise_cons.1 hd
    rw [List.foldl_cons]
    rcases List.mem_cons.1 hbm with rfl | hbm'
    · rw [pix_congr dst (m' := pixelateBlock src dst m b)]
      · refine pix_forPixels dst _ (fun _ _ _ => blockAvg src m b) m (pixels_nodup _)
          (fun q hq => (hb b (by simp) q hq).1) (fun _ _ _ _ => rfl) p hp
      · intro a ha
        refine foldl_pixelateBlock_agreeOff src dst bs _ a fun q hq hqa => ?_
        obtain ⟨d, hdm, hqd⟩ := List.mem_flatMap.1 hq
        have e := addr_inj dst (hb b (by simp) p hp).1 (hb d (by simp [hdm]) q hqd).1 (ha.symm.trans hqa)
        exact List.disjoint_left.1 (hc d hdm) hp (by rwa [show p = q from Prod.ext e.1 e.2])
    · rw [ih _ (fun d hd2 => hb d (by simp [hd2])) hd' b hbm' p hp]
      refine blockAvg_congr src b fun q hq => ?_
      have hqb := hb b hbm q hq
      exact pix_of_aligned hal (hb c (by simp)) (pixelateBlock_agreeOff src dst m c) (hw ▸ hqb.1) (hh ▸ hqb.2)
        fun hqc => List.disjoint_left.1 (hc b hbm') hqc hq

theorem pixelateImage_outside {src dst : Image} {size : Nat} (hs : 1 ≤ size) (hw : src.w = dst.w) (hh : src.h = dst.h)
    (m : Memory) {a : Nat} (ha : ¬ dst.hasByte a) : readByte (pixelateImage src dst size m) a = readByte m a := by
  refine agreeOff_outside (foldl_pixelateBlock_agreeOff src dst _ m) (fun p hp => ?_) ha
  obtain ⟨b, hb, hp⟩ := List.mem_flatMap.1 hp
  rw [← hw, ← hh]
  exact block_in_bounds hs hb p hp

theorem pix_pixelateImage {src dst : Image} (hal : Aligned src dst) {size : Nat} (hs : 1 ≤ size) (hw : src.w = dst.w)
    (hh : src.h = dst.h) (m : Memory) {x y : Nat} (hx : x < dst.w) (hy : y < dst.h) :
    dst.pix (pixelateImage src dst size m) x y =
      blockAvg src m (block size src.w src.h (x / size * size) (y / size * size)) := by
  have hown := mem_own_block hs (hw ▸ hx : x < src.w) (hh ▸ hy : y < src.h)
  refine pix_foldl_pixelateBlock hal hw hh _ m (fun b hb p hp => ?_) (blocks_disjoint hs _ _) _ hown.1 (x, y) hown.2
  rw [← hw, ← hh]
  exact block_in_bounds hs hb p hp

theorem blockSize_pos (param : Nat) : 1 ≤ blockSize param := by
  simp only [blockSize, effective]; split <;> omega

end Sys2Proof.Machine
end

