-- ==== Sys2Proof/Laws/State.lean ====
section
/-! SUPPORT. What each update of the state leaves in each field, so that no proof unfolds a record update. -/

namespace Sys2Proof.Machine

/-! reject -/

@[simp] theorem reject_addrW (e : ErrCode) (s : State) : (reject e s).addrW = s.addrW := rfl
@[simp] theorem reject_cmd (e : ErrCode) (s : State) : (reject e s).cmd = s.cmd := rfl
@[simp] theorem reject_done (e : ErrCode) (s : State) : (reject e s).done = true := rfl
@[simp] theorem reject_err (e : ErrCode) (s : State) : (reject e s).err = true := rfl
@[simp] theorem reject_accErr (e : ErrCode) (s : State) : (reject e s).accErr = s.accErr := rfl
@[simp] theorem reject_ecode (e : ErrCode) (s : State) : (reject e s).ecode = errorNumber e := rfl
@[simp] theorem reject_ie (e : ErrCode) (s : State) : (reject e s).ie = s.ie := rfl
@[simp] theorem reject_width (e : ErrCode) (s : State) : (reject e s).width = s.width := rfl
@[simp] theorem reject_height (e : ErrCode) (s : State) : (reject e s).height = s.height := rfl
@[simp] theorem reject_srcBase (e : ErrCode) (s : State) : (reject e s).srcBase = s.srcBase := rfl
@[simp] theorem reject_dstBase (e : ErrCode) (s : State) : (reject e s).dstBase = s.dstBase := rfl
@[simp] theorem reject_scrBase (e : ErrCode) (s : State) : (reject e s).scrBase = s.scrBase := rfl
@[simp] theorem reject_pkA (e : ErrCode) (s : State) : (reject e s).pkA = s.pkA := rfl
@[simp] theorem reject_pkR (e : ErrCode) (s : State) : (reject e s).pkR = s.pkR := rfl
@[simp] theorem reject_pkG (e : ErrCode) (s : State) : (reject e s).pkG = s.pkG := rfl
@[simp] theorem reject_pkB (e : ErrCode) (s : State) : (reject e s).pkB = s.pkB := rfl
@[simp] theorem reject_pkOut (e : ErrCode) (s : State) : (reject e s).pkOut = s.pkOut := rfl
@[simp] theorem reject_upIn (e : ErrCode) (s : State) : (reject e s).upIn = s.upIn := rfl
@[simp] theorem reject_upA (e : ErrCode) (s : State) : (reject e s).upA = s.upA := rfl
@[simp] theorem reject_upR (e : ErrCode) (s : State) : (reject e s).upR = s.upR := rfl
@[simp] theorem reject_upG (e : ErrCode) (s : State) : (reject e s).upG = s.upG := rfl
@[simp] theorem reject_upB (e : ErrCode) (s : State) : (reject e s).upB = s.upB := rfl
@[simp] theorem reject_pmem (e : ErrCode) (s : State) : (reject e s).pmem = s.pmem := rfl
@[simp] theorem reject_engine (e : ErrCode) (s : State) : (reject e s).engine = s.engine := rfl
@[simp] theorem reject_response (e : ErrCode) (s : State) : (reject e s).response = s.response := rfl
@[simp] theorem reject_events (e : ErrCode) (s : State) : (reject e s).events = s.events := rfl
@[simp] theorem reject_draws (e : ErrCode) (s : State) : (reject e s).draws = s.draws := rfl

/-! accept -/

@[simp] theorem accept_addrW (i : Instr) (s : State) : (accept i s).addrW = s.addrW := rfl
@[simp] theorem accept_cmd (i : Instr) (s : State) : (accept i s).cmd = s.cmd := rfl
@[simp] theorem accept_done (i : Instr) (s : State) : (accept i s).done = s.done := rfl
@[simp] theorem accept_err (i : Instr) (s : State) : (accept i s).err = s.err := rfl
@[simp] theorem accept_accErr (i : Instr) (s : State) : (accept i s).accErr = s.accErr := rfl
@[simp] theorem accept_ecode (i : Instr) (s : State) : (accept i s).ecode = s.ecode := rfl
@[simp] theorem accept_ie (i : Instr) (s : State) : (accept i s).ie = s.ie := rfl
@[simp] theorem accept_width (i : Instr) (s : State) : (accept i s).width = s.width := rfl
@[simp] theorem accept_height (i : Instr) (s : State) : (accept i s).height = s.height := rfl
@[simp] theorem accept_srcBase (i : Instr) (s : State) : (accept i s).srcBase = s.srcBase := rfl
@[simp] theorem accept_dstBase (i : Instr) (s : State) : (accept i s).dstBase = s.dstBase := rfl
@[simp] theorem accept_scrBase (i : Instr) (s : State) : (accept i s).scrBase = s.scrBase := rfl
@[simp] theorem accept_pkA (i : Instr) (s : State) : (accept i s).pkA = s.pkA := rfl
@[simp] theorem accept_pkR (i : Instr) (s : State) : (accept i s).pkR = s.pkR := rfl
@[simp] theorem accept_pkG (i : Instr) (s : State) : (accept i s).pkG = s.pkG := rfl
@[simp] theorem accept_pkB (i : Instr) (s : State) : (accept i s).pkB = s.pkB := rfl
@[simp] theorem accept_pkOut (i : Instr) (s : State) : (accept i s).pkOut = s.pkOut := rfl
@[simp] theorem accept_upIn (i : Instr) (s : State) : (accept i s).upIn = s.upIn := rfl
@[simp] theorem accept_upA (i : Instr) (s : State) : (accept i s).upA = s.upA := rfl
@[simp] theorem accept_upR (i : Instr) (s : State) : (accept i s).upR = s.upR := rfl
@[simp] theorem accept_upG (i : Instr) (s : State) : (accept i s).upG = s.upG := rfl
@[simp] theorem accept_upB (i : Instr) (s : State) : (accept i s).upB = s.upB := rfl
@[simp] theorem accept_pmem (i : Instr) (s : State) : (accept i s).pmem = s.pmem := rfl
@[simp] theorem accept_engine (i : Instr) (s : State) : (accept i s).engine = some (latch i s) := rfl
@[simp] theorem accept_response (i : Instr) (s : State) : (accept i s).response = s.response := rfl
@[simp] theorem accept_events (i : Instr) (s : State) : (accept i s).events = s.events := rfl
@[simp] theorem accept_draws (i : Instr) (s : State) : (accept i s).draws = s.draws := rfl

/-! complete -/

@[simp] theorem complete_addrW (s : State) : (complete s).addrW = s.addrW := rfl
@[simp] theorem complete_cmd (s : State) : (complete s).cmd = s.cmd := rfl
@[simp] theorem complete_done (s : State) : (complete s).done = true := rfl
@[simp] theorem complete_err (s : State) : (complete s).err = s.err := rfl
@[simp] theorem complete_accErr (s : State) : (complete s).accErr = s.accErr := rfl
@[simp] theorem complete_ecode (s : State) : (complete s).ecode = s.ecode := rfl
@[simp] theorem complete_ie (s : State) : (complete s).ie = s.ie := rfl
@[simp] theorem complete_width (s : State) : (complete s).width = s.width := rfl
@[simp] theorem complete_height (s : State) : (complete s).height = s.height := rfl
@[simp] theorem complete_srcBase (s : State) : (complete s).srcBase = s.srcBase := rfl
@[simp] theorem complete_dstBase (s : State) : (complete s).dstBase = s.dstBase := rfl
@[simp] theorem complete_scrBase (s : State) : (complete s).scrBase = s.scrBase := rfl
@[simp] theorem complete_pkA (s : State) : (complete s).pkA = s.pkA := rfl
@[simp] theorem complete_pkR (s : State) : (complete s).pkR = s.pkR := rfl
@[simp] theorem complete_pkG (s : State) : (complete s).pkG = s.pkG := rfl
@[simp] theorem complete_pkB (s : State) : (complete s).pkB = s.pkB := rfl
@[simp] theorem complete_pkOut (s : State) : (complete s).pkOut = s.pkOut := rfl
@[simp] theorem complete_upIn (s : State) : (complete s).upIn = s.upIn := rfl
@[simp] theorem complete_upA (s : State) : (complete s).upA = s.upA := rfl
@[simp] theorem complete_upR (s : State) : (complete s).upR = s.upR := rfl
@[simp] theorem complete_upG (s : State) : (complete s).upG = s.upG := rfl
@[simp] theorem complete_upB (s : State) : (complete s).upB = s.upB := rfl
@[simp] theorem complete_pmem (s : State) : (complete s).pmem = s.pmem := rfl
@[simp] theorem complete_engine (s : State) : (complete s).engine = none := rfl
@[simp] theorem complete_response (s : State) : (complete s).response = s.response := rfl
@[simp] theorem complete_events (s : State) : (complete s).events = s.events := rfl
@[simp] theorem complete_draws (s : State) : (complete s).draws = s.draws := rfl

/-! answer -/

@[simp] theorem answer_addrW (v : Word) (s : State) : (answer v s).addrW = s.addrW := rfl
@[simp] theorem answer_cmd (v : Word) (s : State) : (answer v s).cmd = s.cmd := rfl
@[simp] theorem answer_done (v : Word) (s : State) : (answer v s).done = s.done := rfl
@[simp] theorem answer_err (v : Word) (s : State) : (answer v s).err = s.err := rfl
@[simp] theorem answer_accErr (v : Word) (s : State) : (answer v s).accErr = s.accErr := rfl
@[simp] theorem answer_ecode (v : Word) (s : State) : (answer v s).ecode = s.ecode := rfl
@[simp] theorem answer_ie (v : Word) (s : State) : (answer v s).ie = s.ie := rfl
@[simp] theorem answer_width (v : Word) (s : State) : (answer v s).width = s.width := rfl
@[simp] theorem answer_height (v : Word) (s : State) : (answer v s).height = s.height := rfl
@[simp] theorem answer_srcBase (v : Word) (s : State) : (answer v s).srcBase = s.srcBase := rfl
@[simp] theorem answer_dstBase (v : Word) (s : State) : (answer v s).dstBase = s.dstBase := rfl
@[simp] theorem answer_scrBase (v : Word) (s : State) : (answer v s).scrBase = s.scrBase := rfl
@[simp] theorem answer_pkA (v : Word) (s : State) : (answer v s).pkA = s.pkA := rfl
@[simp] theorem answer_pkR (v : Word) (s : State) : (answer v s).pkR = s.pkR := rfl
@[simp] theorem answer_pkG (v : Word) (s : State) : (answer v s).pkG = s.pkG := rfl
@[simp] theorem answer_pkB (v : Word) (s : State) : (answer v s).pkB = s.pkB := rfl
@[simp] theorem answer_pkOut (v : Word) (s : State) : (answer v s).pkOut = s.pkOut := rfl
@[simp] theorem answer_upIn (v : Word) (s : State) : (answer v s).upIn = s.upIn := rfl
@[simp] theorem answer_upA (v : Word) (s : State) : (answer v s).upA = s.upA := rfl
@[simp] theorem answer_upR (v : Word) (s : State) : (answer v s).upR = s.upR := rfl
@[simp] theorem answer_upG (v : Word) (s : State) : (answer v s).upG = s.upG := rfl
@[simp] theorem answer_upB (v : Word) (s : State) : (answer v s).upB = s.upB := rfl
@[simp] theorem answer_pmem (v : Word) (s : State) : (answer v s).pmem = s.pmem := rfl
@[simp] theorem answer_engine (v : Word) (s : State) : (answer v s).engine = s.engine := rfl
@[simp] theorem answer_response (v : Word) (s : State) : (answer v s).response = some ⟨false, some v⟩ := rfl
@[simp] theorem answer_events (v : Word) (s : State) : (answer v s).events = s.events := rfl
@[simp] theorem answer_draws (v : Word) (s : State) : (answer v s).draws = s.draws := rfl

/-! acknowledge -/

@[simp] theorem acknowledge_addrW (s : State) : (acknowledge s).addrW = s.addrW := rfl
@[simp] theorem acknowledge_cmd (s : State) : (acknowledge s).cmd = s.cmd := rfl
@[simp] theorem acknowledge_done (s : State) : (acknowledge s).done = s.done := rfl
@[simp] theorem acknowledge_err (s : State) : (acknowledge s).err = s.err := rfl
@[simp] theorem acknowledge_accErr (s : State) : (acknowledge s).accErr = s.accErr := rfl
@[simp] theorem acknowledge_ecode (s : State) : (acknowledge s).ecode = s.ecode := rfl
@[simp] theorem acknowledge_ie (s : State) : (acknowledge s).ie = s.ie := rfl
@[simp] theorem acknowledge_width (s : State) : (acknowledge s).width = s.width := rfl
@[simp] theorem acknowledge_height (s : State) : (acknowledge s).height = s.height := rfl
@[simp] theorem acknowledge_srcBase (s : State) : (acknowledge s).srcBase = s.srcBase := rfl
@[simp] theorem acknowledge_dstBase (s : State) : (acknowledge s).dstBase = s.dstBase := rfl
@[simp] theorem acknowledge_scrBase (s : State) : (acknowledge s).scrBase = s.scrBase := rfl
@[simp] theorem acknowledge_pkA (s : State) : (acknowledge s).pkA = s.pkA := rfl
@[simp] theorem acknowledge_pkR (s : State) : (acknowledge s).pkR = s.pkR := rfl
@[simp] theorem acknowledge_pkG (s : State) : (acknowledge s).pkG = s.pkG := rfl
@[simp] theorem acknowledge_pkB (s : State) : (acknowledge s).pkB = s.pkB := rfl
@[simp] theorem acknowledge_pkOut (s : State) : (acknowledge s).pkOut = s.pkOut := rfl
@[simp] theorem acknowledge_upIn (s : State) : (acknowledge s).upIn = s.upIn := rfl
@[simp] theorem acknowledge_upA (s : State) : (acknowledge s).upA = s.upA := rfl
@[simp] theorem acknowledge_upR (s : State) : (acknowledge s).upR = s.upR := rfl
@[simp] theorem acknowledge_upG (s : State) : (acknowledge s).upG = s.upG := rfl
@[simp] theorem acknowledge_upB (s : State) : (acknowledge s).upB = s.upB := rfl
@[simp] theorem acknowledge_pmem (s : State) : (acknowledge s).pmem = s.pmem := rfl
@[simp] theorem acknowledge_engine (s : State) : (acknowledge s).engine = s.engine := rfl
@[simp] theorem acknowledge_response (s : State) : (acknowledge s).response = some ⟨false, none⟩ := rfl
@[simp] theorem acknowledge_events (s : State) : (acknowledge s).events = s.events := rfl
@[simp] theorem acknowledge_draws (s : State) : (acknowledge s).draws = s.draws := rfl

/-! refuseAccess -/

@[simp] theorem refuseAccess_addrW (s : State) : (refuseAccess s).addrW = s.addrW := rfl
@[simp] theorem refuseAccess_cmd (s : State) : (refuseAccess s).cmd = s.cmd := rfl
@[simp] theorem refuseAccess_done (s : State) : (refuseAccess s).done = s.done := rfl
@[simp] theorem refuseAccess_err (s : State) : (refuseAccess s).err = s.err := rfl
@[simp] theorem refuseAccess_accErr (s : State) : (refuseAccess s).accErr = true := rfl
@[simp] theorem refuseAccess_ecode (s : State) : (refuseAccess s).ecode = s.ecode := rfl
@[simp] theorem refuseAccess_ie (s : State) : (refuseAccess s).ie = s.ie := rfl
@[simp] theorem refuseAccess_width (s : State) : (refuseAccess s).width = s.width := rfl
@[simp] theorem refuseAccess_height (s : State) : (refuseAccess s).height = s.height := rfl
@[simp] theorem refuseAccess_srcBase (s : State) : (refuseAccess s).srcBase = s.srcBase := rfl
@[simp] theorem refuseAccess_dstBase (s : State) : (refuseAccess s).dstBase = s.dstBase := rfl
@[simp] theorem refuseAccess_scrBase (s : State) : (refuseAccess s).scrBase = s.scrBase := rfl
@[simp] theorem refuseAccess_pkA (s : State) : (refuseAccess s).pkA = s.pkA := rfl
@[simp] theorem refuseAccess_pkR (s : State) : (refuseAccess s).pkR = s.pkR := rfl
@[simp] theorem refuseAccess_pkG (s : State) : (refuseAccess s).pkG = s.pkG := rfl
@[simp] theorem refuseAccess_pkB (s : State) : (refuseAccess s).pkB = s.pkB := rfl
@[simp] theorem refuseAccess_pkOut (s : State) : (refuseAccess s).pkOut = s.pkOut := rfl
@[simp] theorem refuseAccess_upIn (s : State) : (refuseAccess s).upIn = s.upIn := rfl
@[simp] theorem refuseAccess_upA (s : State) : (refuseAccess s).upA = s.upA := rfl
@[simp] theorem refuseAccess_upR (s : State) : (refuseAccess s).upR = s.upR := rfl
@[simp] theorem refuseAccess_upG (s : State) : (refuseAccess s).upG = s.upG := rfl
@[simp] theorem refuseAccess_upB (s : State) : (refuseAccess s).upB = s.upB := rfl
@[simp] theorem refuseAccess_pmem (s : State) : (refuseAccess s).pmem = s.pmem := rfl
@[simp] theorem refuseAccess_engine (s : State) : (refuseAccess s).engine = s.engine := rfl
@[simp] theorem refuseAccess_response (s : State) : (refuseAccess s).response = s.response := rfl
@[simp] theorem refuseAccess_events (s : State) : (refuseAccess s).events = s.events := rfl
@[simp] theorem refuseAccess_draws (s : State) : (refuseAccess s).draws = s.draws := rfl

/-! BUSY -/

@[simp] theorem busy_eq_isSome (s : State) : s.busy = s.engine.isSome := rfl

theorem busy_of_engine {s : State} {j : Latched} (h : s.engine = some j) : s.busy = true := by simp [h]

theorem idle_of_engine {s : State} (h : s.engine = none) : s.busy = false := by simp [h]

theorem engine_of_busy {s : State} (h : s.busy = true) : ∃ j, s.engine = some j := Option.isSome_iff_exists.1 h

theorem engine_of_idle {s : State} (h : s.busy = false) : s.engine = none := by simpa using h

end Sys2Proof.Machine
end

