-- ==== Sys2Proof/Laws/Command.lean ====
section
/-! SUPPORT. What `exec` can answer, in IDLE and in BUSY; what each operation can change; and that every operation keeps the
canonical form of pixel memory and the bound on its addresses. -/

namespace Sys2Proof.Machine

/-- The operation each command runs in BUSY. -/
def effectOf : Instr → Latched → State → State
  | .pack => packEffect
  | .unpack => unpackEffect
  | .blur5 => blur5Effect
  | .blur3 => blur3Effect
  | .sobel gm bz => sobelEffect gm bz
  | .pixelate param => pixelateEffect param
  | .rblur param => rblurEffect param
  | .rinvert param => rinvertEffect param

theorem exec_eq_runCommand (i : Instr) (s : State) : exec i s = runCommand i (effectOf i) s := by
  cases i <;> rfl

/-- In IDLE `exec` issues the command (R160). -/
theorem exec_idle (i : Instr) {s : State} (h : s.engine = none) : exec i s = .next (issue i s) := by
  rw [exec_eq_runCommand, runCommand, h]

/-- In BUSY, with the latched buffers in PMEM, `exec` runs the operation and completes (R164, R165). -/
theorem exec_busy (i : Instr) {s : State} {j : Latched} (h : s.engine = some j)
    (hr : inRange s.addrW.words i j = true) : exec i s = .next (complete (effectOf i j s)) := by
  rw [exec_eq_runCommand, runCommand, h]
  simp only [hr, if_true]

/-- All that `exec` can answer as a next state. -/
theorem exec_next {i : Instr} {s t : State} (h : exec i s = .next t) :
    (s.engine = none ∧ t = issue i s) ∨
    ∃ j, s.engine = some j ∧ inRange s.addrW.words i j = true ∧ t = complete (effectOf i j s) := by
  cases he : s.engine with
  | none => rw [exec_idle i he] at h; exact .inl ⟨rfl, by injection h with h; exact h.symm⟩
  | some j =>
    refine .inr ⟨j, rfl, ?_⟩
    rw [exec_eq_runCommand, runCommand, he] at h
    simp only at h
    split at h
    · rename_i hr; exact ⟨hr, by injection h with h; exact h.symm⟩
    · exact absurd h (by simp)

/-- All that issue can do (R160 to R163). -/
theorem issue_cases (i : Instr) (s : State) :
    (∃ e, validate s.addrW.words i (latch i s) = some e ∧ issue i s = reject e s) ∨
    (validate s.addrW.words i (latch i s) = none ∧ issue i s = accept i s) := by
  simp only [issue]
  cases h : validate s.addrW.words i (latch i s) with
  | none => exact .inr ⟨rfl, rfl⟩
  | some e => exact .inl ⟨e, rfl, rfl⟩

/-- What an operation can change: pixel memory, the result registers and the counter of draws. -/
theorem effectOf_frame (i : Instr) (j : Latched) (s : State) :
    effectOf i j s = { s with
      pmem := (effectOf i j s).pmem
      pkOut := (effectOf i j s).pkOut
      upA := (effectOf i j s).upA
      upR := (effectOf i j s).upR
      upG := (effectOf i j s).upG
      upB := (effectOf i j s).upB
      draws := (effectOf i j s).draws } := by
  cases i <;> simp only [effectOf, unpackEffect, blur5Effect, blur3Effect, sobelEffect, pixelateEffect, rblurEffect,
    rinvertEffect]
  simp only [packEffect]
  split <;> rfl

theorem effectOf_pkOut (i : Instr) (j : Latched) (s : State) (h : i ≠ .pack) : (effectOf i j s).pkOut = s.pkOut := by
  cases i <;> first | rfl | exact absurd rfl h

theorem effectOf_up (i : Instr) (j : Latched) (s : State) (h : i ≠ .unpack) :
    (effectOf i j s).upA = s.upA ∧ (effectOf i j s).upR = s.upR ∧ (effectOf i j s).upG = s.upG ∧
    (effectOf i j s).upB = s.upB := by
  cases i
  case pack => simp only [effectOf, packEffect]; split <;> simp
  case unpack => exact absurd rfl h
  all_goals exact ⟨rfl, rfl, rfl, rfl⟩

theorem effectOf_pmem_of_no_image (i : Instr) (j : Latched) (s : State) (h : isImageCommand i = false) :
    (effectOf i j s).pmem = s.pmem := by
  cases i <;> simp [isImageCommand] at h
  · simp only [effectOf, packEffect]; split <;> rfl
  · rfl

/-! Validation -/

theorem validate_none {words : Nat} {i : Instr} {j : Latched} :
    validate words i j = none ↔ inRange words i j = true ∧ aliasingViolation i j = false := by
  simp only [validate]
  cases h1 : inRange words i j <;> cases h2 : aliasingViolation i j <;> simp

/-- An image command is in range when its SRC and DST lie in PMEM, and for RBLUR its SCR too (R167). -/
theorem inRange_image_iff {words : Nat} {i : Instr} {j : Latched} (hi : isImageCommand i = true) :
    inRange words i j = true ↔
      j.srcImage.base + j.srcImage.size ≤ words ∧ j.dstImage.base + j.dstImage.size ≤ words ∧
      ((∃ p, i = .rblur p) → j.scrImage.base + j.scrImage.size ≤ words) := by
  cases i <;> simp [isImageCommand] at hi <;> simp [inRange, buffers, Image.fits]

theorem inRange_image {words : Nat} {i : Instr} {j : Latched} (hi : isImageCommand i = true)
    (h : inRange words i j = true) :
    j.srcImage.base + j.srcImage.size ≤ words ∧ j.dstImage.base + j.dstImage.size ≤ words ∧
    ((∃ p, i = .rblur p) → j.scrImage.base + j.scrImage.size ≤ words) := (inRange_image_iff hi).1 h

/-- Two buffers overlap when neither is empty and each starts below the other's end (R168). -/
theorem overlaps_iff (i k : Image) :
    i.overlaps k = true ↔ 0 < i.size ∧ 0 < k.size ∧ i.base < k.base + k.size ∧ k.base < i.base + i.size := by
  simp [Image.overlaps]

/-- What a command's checks leave of how SRC, DST and SCR relate (R168). -/
theorem aligned_of_not_alias {i : Instr} {j : Latched} (hi : isImageCommand i = true)
    (h : aliasingViolation i j = false) : Aligned j.srcImage j.dstImage := by
  cases i <;> simp only [isImageCommand, Bool.false_eq_true] at hi <;> simp only [aliasingViolation, Bool.or_eq_false_iff] at h
  · exact (apart_of_not_overlaps h).aligned
  · exact (apart_of_not_overlaps h).aligned
  · exact (apart_of_not_overlaps h).aligned
  · exact aligned_of_not_partialOverlap h
  · exact aligned_of_not_partialOverlap h.1.1
  · exact aligned_of_not_partialOverlap h

theorem rblur_apart {p : Nat} {j : Latched} (h : aliasingViolation (.rblur p) j = false) :
    (j.srcImage.base ≠ j.dstImage.base → Apart j.srcImage j.dstImage) ∧ Apart j.dstImage j.scrImage := by
  simp only [aliasingViolation, Bool.or_eq_false_iff] at h
  refine ⟨fun hne => ?_, (apart_of_not_overlaps h.2).symm⟩
  have hp := h.1.1
  simp only [partialOverlap, Bool.and_eq_false_iff] at hp
  rcases hp with hp | hp
  · exact absurd (congrArg BitVec.toNat (by simpa using hp : j.src = j.dst)) hne
  · exact apart_of_not_overlaps hp

/-! The canonical form and the bound -/

theorem scramble_keeps {P : Memory → Prop} (base n d : Nat) (m : Memory)
    (h : ∀ k < n, ∀ v m, P m → P (writeWord m (base + k) v)) (hm : P m) : P (scramble base n d m) := by
  have key : ∀ (ks : List Nat) (m : Memory), (∀ k ∈ ks, k < n) → P m →
      P (ks.foldl (fun m k => writeWord m (base + k) (Config.freeWord (d + k))) m) := by
    intro ks
    induction ks with
    | nil => intro m _ hm; exact hm
    | cons k ks ih => intro m hks hm; exact ih _ (fun l hl => hks l (by simp [hl])) (h k (hks k (by simp)) _ _ hm)
  exact key _ m (fun k hk => List.mem_range.1 hk) hm

theorem foldl_keeps {α : Type} {P : Memory → Prop} (f : Memory → α → Memory) (as : List α) (m : Memory)
    (h : ∀ a ∈ as, ∀ m, P m → P (f m a)) (hm : P m) : P (as.foldl f m) := by
  induction as generalizing m with
  | nil => exact hm
  | cons a as ih => exact ih _ (fun b hb => h b (by simp [hb])) (h a (by simp) m hm)

/-- A property that every write of a pixel of DST (and, for RBLUR, of SCR) keeps is kept by every operation. -/
theorem effectOf_keeps {P : Memory → Prop} (i : Instr) (j : Latched) (s : State)
    (hd : ∀ x y v m, x < j.dstImage.w → y < j.dstImage.h → P m → P (j.dstImage.setPix x y v m))
    (hs : (∃ p, i = .rblur p) → ∀ k < j.scrImage.size, ∀ v m, P m → P (writeWord m (j.scrImage.base + k) v))
    (hm : P s.pmem) : P (effectOf i j s).pmem := by
  have hwhole : ∀ (g : Nat → Nat → Memory → Word) (m : Memory), P m →
      P (forPixels j.dstImage.region.pixels (fun x y m => j.dstImage.setPix x y (g x y m) m) m) := by
    intro g m hm
    refine forPixels_keeps _ _ m (fun p hp m hm => ?_) hm
    have := (mem_image_pixels j.dstImage p.1 p.2).1 hp
    exact hd _ _ _ _ this.1 this.2 hm
  cases i with
  | pack => simp only [effectOf, packEffect]; split <;> exact hm
  | unpack => exact hm
  | blur5 => exact hwhole (fun x y m => boxAvg j.srcImage m x y 2) _ hm
  | blur3 => exact hwhole (fun x y m => boxAvg j.srcImage m x y 1) _ hm
  | sobel gm bz => exact hwhole (fun x y m => sobelPixel gm bz j.srcImage m x y) _ hm
  | pixelate param =>
    refine foldl_keeps _ _ _ (fun b hb m hm => ?_) hm
    show P (forPixels b.pixels (fun x y m' => j.dstImage.setPix x y (blockAvg j.srcImage m b) m') m)
    refine forPixels_keeps _ _ m (fun p hp m hm => ?_) hm
    have := block_in_bounds (blockSize_pos param) hb p hp
    exact hd _ _ _ _ this.1 this.2 hm
  | rblur param =>
    have hs' := hs ⟨param, rfl⟩
    refine scramble_keeps _ _ _ _ hs' ?_
    refine foldl_keeps _ _ _ (fun r hr m hm => ?_) ?_
    · have hb := visitImage_in_bounds _ _ hr
      show P (forPixels r.pixels (fun x y m => j.dstImage.setPix x y (j.scrImage.pix m x y) m)
        (forPixels r.pixels (fun x y m => j.scrImage.setPix x y (boxAvg j.dstImage m x y 1) m) m))
      refine forPixels_keeps _ _ _ (fun p hp m hm => hd _ _ _ _ (hb p hp).1 (hb p hp).2 hm) ?_
      refine forPixels_keeps _ _ _ (fun p hp m hm => ?_) hm
      have ha := addr_bounds j.scrImage (hb p hp).1 (hb p hp).2
      have := hs' (j.scrImage.addr p.1 p.2 - j.scrImage.base) (by omega)
        (boxAvg j.dstImage m p.1 p.2 1) m hm
      rwa [Nat.add_sub_cancel' ha.1] at this
    · simp only [loadWorking]
      split
      · exact hwhole (fun x y m => j.srcImage.pix m x y) _ hm
      · exact hm
  | rinvert param =>
    refine foldl_keeps _ _ _ (fun r hr m hm => ?_) hm
    have hb := visitImage_in_bounds _ _ (List.mem_filter.1 hr).1
    exact forPixels_keeps _ _ m (fun p hp m hm => hd _ _ _ _ (hb p hp).1 (hb p hp).2 hm) hm

/-- Every operation keeps the canonical form of pixel memory. -/
theorem effectOf_wf (i : Instr) (j : Latched) (s : State) (h : s.pmem.wf = true) : (effectOf i j s).pmem.wf = true :=
  effectOf_keeps (P := fun m => m.wf = true) i j s (fun _ _ _ _ _ _ hm => writeWord_wf _ _ _ hm)
    (fun _ _ _ _ _ hm => writeWord_wf _ _ _ hm) h

/-- Every operation of a command in range writes only words of PMEM. -/
theorem effectOf_below {words : Nat} (i : Instr) (j : Latched) (s : State) (hr : inRange words i j = true)
    (h : s.pmem.Below (4 * words)) : (effectOf i j s).pmem.Below (4 * words) := by
  cases hi : isImageCommand i with
  | false => rw [effectOf_pmem_of_no_image i j s hi]; exact h
  | true =>
    have hb := inRange_image hi hr
    exact effectOf_keeps (P := fun m => m.Below (4 * words)) i j s
      (fun _ _ _ _ hx hy hm => setPix_below _ _ _ hx hy hb.2.1 hm)
      (fun hrb k hk _ _ hm => writeWord_below _ _ _ _ (by have := hb.2.2 hrb; omega) hm) h

theorem scrambleBuffers_keeps {P : Memory → Prop} (bs : List Image) (d : Nat) (m : Memory)
    (h : ∀ b ∈ bs, ∀ k < b.size, ∀ v m, P m → P (writeWord m (b.base + k) v)) (hm : P m) :
    P (scrambleBuffers d bs m) := by
  induction bs generalizing d m with
  | nil => exact hm
  | cons b bs ih =>
    exact ih _ _ (fun c hc => h c (by simp [hc])) (scramble_keeps _ _ _ _ (h b (by simp)) hm)

theorem scrambleBuffers_outside (bs : List Image) (d : Nat) (m : Memory) {a : Nat} (h : ∀ b ∈ bs, ¬ b.hasByte a) :
    readByte (scrambleBuffers d bs m) a = readByte m a := by
  induction bs generalizing d m with
  | nil => rfl
  | cons b bs ih =>
    rw [scrambleBuffers, ih _ _ fun c hc => h c (by simp [hc]), scramble_outside b d m (h b (by simp))]

/-- A command's written buffers are among those it uses, so they are in PMEM when it is in range (R55, R167). -/
theorem writtenBuffers_fit {words : Nat} {i : Instr} {j : Latched} (h : inRange words i j = true) :
    ∀ b ∈ writtenBuffers i j, b.base + b.size ≤ words := by
  cases i <;> simp_all [inRange, buffers, writtenBuffers, Image.fits]

end Sys2Proof.Machine
end

