-- ==== Sys2Proof/Laws/PerInstr.lean ====
section
/-! SUPPORT. The per-instruction family EncodedWord: the word of every command has its reserved fields clear and an opcode the
opcode map lists (30_encoding.md R100, R102). -/

namespace Sys2Proof

theorem opField_commandWord (param : BitVec 8) (bz : BitVec 1) (gm : BitVec 2) (op : BitVec 4) :
    opField (commandWord param bz gm op) = op := by
  ext i hi
  simp only [opField, commandWord, BitVec.getElem_extractLsb', BitVec.getLsbD_append]
  simp [show i < 4 by omega]

theorem gmField_commandWord (param : BitVec 8) (bz : BitVec 1) (gm : BitVec 2) (op : BitVec 4) :
    gmField (commandWord param bz gm op) = gm := by
  ext i hi
  simp only [gmField, commandWord, BitVec.getElem_extractLsb', BitVec.getLsbD_append]
  rw [if_neg (by omega), if_pos (by omega), ← BitVec.getLsbD_eq_getElem]
  congr 1; omega

theorem bzField_commandWord (param : BitVec 8) (bz : BitVec 1) (gm : BitVec 2) (op : BitVec 4) :
    bzField (commandWord param bz gm op) = bz := by
  ext i hi
  simp only [bzField, commandWord, BitVec.getElem_extractLsb', BitVec.getLsbD_append]
  rw [if_neg (by omega), if_neg (by omega), if_pos (by omega), ← BitVec.getLsbD_eq_getElem]
  congr 1; omega

theorem rsv0Field_commandWord (param : BitVec 8) (bz : BitVec 1) (gm : BitVec 2) (op : BitVec 4) :
    rsv0Field (commandWord param bz gm op) = 0 := by
  ext i hi
  simp only [rsv0Field, commandWord, BitVec.getElem_extractLsb', BitVec.getLsbD_append]
  rw [if_neg (by omega), if_neg (by omega), if_neg (by omega), if_pos (by omega)]
  simp

theorem paramField_commandWord (param : BitVec 8) (bz : BitVec 1) (gm : BitVec 2) (op : BitVec 4) :
    paramField (commandWord param bz gm op) = param := by
  ext i hi
  simp only [paramField, commandWord, BitVec.getElem_extractLsb', BitVec.getLsbD_append]
  rw [if_neg (by omega), if_neg (by omega), if_neg (by omega), if_neg (by omega), if_pos (by omega),
    ← BitVec.getLsbD_eq_getElem]
  congr 1; omega

theorem rsv1Field_commandWord (param : BitVec 8) (bz : BitVec 1) (gm : BitVec 2) (op : BitVec 4) :
    rsv1Field (commandWord param bz gm op) = 0 := by
  ext i hi
  simp only [rsv1Field, commandWord, BitVec.getElem_extractLsb', BitVec.getLsbD_append]
  rw [if_neg (by omega), if_neg (by omega), if_neg (by omega), if_neg (by omega), if_neg (by omega)]
  simp

theorem rsvClear_commandWord (param : BitVec 8) (bz : BitVec 1) (gm : BitVec 2) (op : BitVec 4) :
    rsvClear (commandWord param bz gm op) = true := by
  simp [rsvClear, rsv1Field_commandWord, rsv0Field_commandWord]

/-- Two words with the same six fields are the same word (R100). -/
theorem word_eq_commandWord (c : Word) (h : rsvClear c = true) :
    c = commandWord (paramField c) (bzField c) (gmField c) (opField c) := by
  simp only [rsvClear, Bool.and_eq_true, beq_iff_eq] at h
  have h1 : ∀ k, k < 16 → c.getLsbD (16 + k) = false := by
    intro k hk
    have := congrArg (fun v => v.getLsbD k) h.1
    simpa [rsv1Field, hk] using this
  have h0 : c.getLsbD 7 = false := by
    have := congrArg (fun v => v.getLsbD 0) h.2
    simpa [rsv0Field] using this
  apply BitVec.eq_of_getLsbD_eq
  intro i hi
  simp only [commandWord, BitVec.getLsbD_append, opField, gmField, bzField, paramField, BitVec.getLsbD_extractLsb']
  by_cases h4 : i < 4
  · simp [h4]
  · by_cases h6 : i < 6
    · rw [if_neg h4, if_pos (by omega)]; simp [show i - 4 < 2 by omega, show 4 + (i - 4) = i by omega]
    · by_cases h7 : i < 7
      · rw [if_neg h4, if_neg (by omega), if_pos (by omega)]
        simp [show i - 4 - 2 < 1 by omega, show 6 + (i - 4 - 2) = i by omega]
      · by_cases h8 : i < 8
        · rw [if_neg h4, if_neg (by omega), if_neg (by omega), if_pos (by omega)]
          rw [show i = 7 by omega, h0]; simp
        · by_cases h16 : i < 16
          · rw [if_neg h4, if_neg (by omega), if_neg (by omega), if_neg (by omega), if_pos (by omega)]
            simp [show i - 4 - 2 - 1 - 1 < 8 by omega, show 8 + (i - 4 - 2 - 1 - 1) = i by omega]
          · rw [if_neg h4, if_neg (by omega), if_neg (by omega), if_neg (by omega), if_neg (by omega)]
            have := h1 (i - 16) (by omega)
            rw [show 16 + (i - 16) = i by omega] at this
            rw [this]; simp

@[simp] theorem GrayMode.ofField_field (g : GrayMode) : GrayMode.ofField g.field = some g := by cases g <;> rfl

@[simp] theorem BorderMode.ofField_field (b : BorderMode) : BorderMode.ofField b.field = b := by cases b <;> rfl

theorem GrayMode.field_ofField {gm : BitVec 2} {g : GrayMode} (h : GrayMode.ofField gm = some g) : g.field = gm := by
  revert gm g; decide +revert

@[simp] theorem BorderMode.field_ofField (bz : BitVec 1) : (BorderMode.ofField bz).field = bz := by
  revert bz; decide

/-- The reserved fields of the command's word are clear, and its opcode is one of 0x1 to 0x8. -/
def Laws.EncodedWord.Statement (i : Instr) : Prop :=
  rsvClear (encode i) = true ∧ 1 ≤ (opField (encode i)).toNat ∧ (opField (encode i)).toNat ≤ 8

theorem Laws.EncodedWord.pack : Laws.EncodedWord.Statement .pack :=
  ⟨rsvClear_commandWord _ _ _ _, by simp [encode, opField_commandWord]⟩

theorem Laws.EncodedWord.unpack : Laws.EncodedWord.Statement .unpack :=
  ⟨rsvClear_commandWord _ _ _ _, by simp [encode, opField_commandWord]⟩

theorem Laws.EncodedWord.blur5 : Laws.EncodedWord.Statement .blur5 :=
  ⟨rsvClear_commandWord _ _ _ _, by simp [encode, opField_commandWord]⟩

theorem Laws.EncodedWord.blur3 : Laws.EncodedWord.Statement .blur3 :=
  ⟨rsvClear_commandWord _ _ _ _, by simp [encode, opField_commandWord]⟩

theorem Laws.EncodedWord.sobel (gm : GrayMode) (bz : BorderMode) : Laws.EncodedWord.Statement (.sobel gm bz) :=
  ⟨rsvClear_commandWord _ _ _ _, by simp [encode, opField_commandWord]⟩

theorem Laws.EncodedWord.pixelate (param : Nat) : Laws.EncodedWord.Statement (.pixelate param) :=
  ⟨rsvClear_commandWord _ _ _ _, by simp [encode, opField_commandWord]⟩

theorem Laws.EncodedWord.rblur (param : Nat) : Laws.EncodedWord.Statement (.rblur param) :=
  ⟨rsvClear_commandWord _ _ _ _, by simp [encode, opField_commandWord]⟩

theorem Laws.EncodedWord.rinvert (param : Nat) : Laws.EncodedWord.Statement (.rinvert param) :=
  ⟨rsvClear_commandWord _ _ _ _, by simp [encode, opField_commandWord]⟩

end Sys2Proof
end

