-- ==== Sys2Proof/Laws/Step.lean ====
section
/-! SUPPORT. What each event of the total order does, case by case: the CSR port, the PMEM port, the issue of a command, the
engine's turn and reset. -/

namespace Sys2Proof.Machine

theorem step_nil {s : State} (h : s.events = []) : step s = engineTurn s := by rw [step, h]

theorem step_cons {s : State} {e : Event} {rest : List Event} (h : s.events = e :: rest) :
    step s = handle e { s with events := rest } := by rw [step, h]

theorem engineTurn_idle {s : State} (h : s.engine = none) : engineTurn s = .next s := by rw [engineTurn, h]

theorem engineTurn_busy {s : State} {j : Latched} (h : s.engine = some j) : engineTurn s = exec j.instr s := by
  rw [engineTurn, h]

/-! Offsets -/

theorem aligned_iff (o : BitVec 12) : aligned o = true ↔ o.toNat % 4 = 0 := by
  simp only [aligned, beq_iff_eq, ← BitVec.toNat_inj, BitVec.extractLsb'_toNat, Nat.shiftRight_zero]
  simp

theorem csrAt_unmapped {o : BitVec 12} (h : 0x04C ≤ o.toNat) : csrAt o = none := by
  simp only [csrAt, List.getElem?_eq_none_iff, csrMap, List.length_cons, List.length_nil]
  omega

/-! The CSR port -/

theorem csrRead_mapped {o : BitVec 12} {r : Csr} (ha : aligned o = true) (hr : csrAt o = some r) (s : State) :
    csrRead o s = answer (readCsr s r) s := by simp [csrRead, ha, hr]

theorem csrRead_unmapped {o : BitVec 12} (ha : aligned o = true) (hr : csrAt o = none) (s : State) :
    csrRead o s = answer 0 s := by simp [csrRead, ha, hr]

theorem csrRead_misaligned {o : BitVec 12} (ha : aligned o = false) (s : State) :
    csrRead o s = { s with response := some ⟨true, some 0⟩ } := by simp [csrRead, ha]

/-- A CSR read changes the record of the answer only (R31, R50). -/
theorem csrRead_frame (o : BitVec 12) (s : State) : ∃ r, csrRead o s = { s with response := r } := by
  simp only [csrRead]
  split
  · split <;> exact ⟨_, rfl⟩
  · exact ⟨_, rfl⟩

theorem csrWrite_mapped {o : BitVec 12} {r : Csr} (ha : aligned o = true) (hr : csrAt o = some r) (v : Word) (s : State) :
    csrWrite o v s = writeRegister r v (acknowledge s) := by simp [csrWrite, ha, hr]

theorem csrWrite_unmapped {o : BitVec 12} (ha : aligned o = true) (hr : csrAt o = none) (v : Word) (s : State) :
    csrWrite o v s = .next (acknowledge s) := by simp [csrWrite, ha, hr]

theorem csrWrite_misaligned {o : BitVec 12} (ha : aligned o = false) (v : Word) (s : State) :
    csrWrite o v s = .next { s with response := some ⟨true, none⟩ } := by simp [csrWrite, ha]

/-- A gated register refuses a write in BUSY (R31). -/
theorem writeRegister_refused {r : Csr} (hg : r.gated = true) {s : State} (hb : s.busy = true) (v : Word) :
    writeRegister r v s = .next (refuseAccess s) := by
  rw [writeRegister, hg, hb]; rfl

/-- Every other write of a register but CMD only stores (R22 to R35). -/
theorem writeRegister_store {r : Csr} (hc : r ≠ .cmd) {s : State} (h : r.gated = false ∨ s.busy = false) (v : Word) :
    writeRegister r v s = .next (storeCsr s v r) := by
  rw [writeRegister]
  rcases h with h | h
  · simp only [h, Bool.false_and, Bool.false_eq_true, if_false, if_neg hc]
  · simp only [h, Bool.and_false, Bool.false_eq_true, if_false, if_neg hc]

/-- A CMD write in IDLE stores the word and issues it (R26). -/
theorem writeRegister_cmd {s : State} (hi : s.engine = none) (v : Word) :
    writeRegister .cmd v s = issueWord v { s with cmd := v } := by
  have hb : s.busy = false := idle_of_engine hi
  simp [writeRegister, storeCsr, hi]

theorem issueWord_error {c : Word} {e : ErrCode} (h : decode c = .error e) (s : State) :
    issueWord c s = .next (reject e s) := by simp [issueWord, h]

theorem issueWord_ok {c : Word} {i : Instr} (h : decode c = .ok i) (s : State) : issueWord c s = exec i s := by
  simp [issueWord, h]

/-- A write to a register other than CMD, in BUSY, changes STATUS and CTRL only (R22, R31). -/
theorem storeCsr_ungated {r : Csr} (h : r.gated = false) (v : Word) (s : State) :
    storeCsr s v r = { s with
      done := (storeCsr s v r).done
      err := (storeCsr s v r).err
      ecode := (storeCsr s v r).ecode
      accErr := (storeCsr s v r).accErr
      ie := (storeCsr s v r).ie } := by
  cases r <;> first | rfl | exact absurd h (by decide)

/-- All that a CSR write in BUSY can do (R31, R49). -/
theorem csrWrite_busy (o : BitVec 12) (v : Word) {s : State} (hb : s.busy = true) :
    ∃ t, csrWrite o v s = .next t ∧ t = { s with
      done := t.done
      err := t.err
      ecode := t.ecode
      accErr := t.accErr
      ie := t.ie
      response := t.response } := by
  cases ha : aligned o with
  | false => rw [csrWrite_misaligned ha]; exact ⟨_, rfl, rfl⟩
  | true =>
    cases hr : csrAt o with
    | none => rw [csrWrite_unmapped ha hr]; exact ⟨_, rfl, rfl⟩
    | some r =>
      rw [csrWrite_mapped ha hr]
      cases hg : r.gated with
      | true => rw [writeRegister_refused hg (s := acknowledge s) hb]; exact ⟨_, rfl, rfl⟩
      | false =>
        have hc : r ≠ .cmd := by rintro rfl; exact absurd hg (by decide)
        rw [writeRegister_store hc (.inl hg)]
        refine ⟨_, rfl, ?_⟩
        rw [storeCsr_ungated hg]
        rfl

/-! Bases -/

theorem words_pos (a : AddrW) : 0 < a.words := Nat.two_pow_pos _

theorem words_le (a : AddrW) : a.words ≤ 2 ^ 30 := Nat.pow_le_pow_right (by omega) a.le_thirty

/-- A base register stores the low ADDR_W bits (R30). -/
theorem baseValue_toNat (s : State) (v : Word) : (baseValue s v).toNat = v.toNat % s.addrW.words := by
  have h1 := Nat.mod_lt v.toNat (words_pos s.addrW)
  have h2 := words_le s.addrW
  simp only [baseValue, BitVec.toNat_ofNat]
  exact Nat.mod_eq_of_lt (by omega)

theorem pmemIndex_lt (s : State) (wa : Word) : pmemIndex s wa < s.addrW.words := Nat.mod_lt _ (words_pos _)

/-! Runs and the invariant -/

theorem runSteps_zero (s : State) : runSteps 0 s = .next s := rfl

theorem runSteps_succ {s t : State} (h : step s = .next t) (n : Nat) : runSteps (n + 1) s = runSteps n t := by
  have h' : core.step s = .next t := h
  simp only [runSteps, Host.Core.run, h']
  rfl

/-- The invariant does not speak of the model's own records, nor of DONE, ACCERR and CTRL. -/
theorem inv_congr {s : State} (h : Inv s) (done accErr ie : Bool) (response : Option Response) (events : List Event)
    (draws : Nat) : Inv { s with done, accErr, ie, response, events, draws } where
  pmem_wf := h.pmem_wf
  pmem_bounded := h.pmem_bounded
  src_bounded := h.src_bounded
  dst_bounded := h.dst_bounded
  scr_bounded := h.scr_bounded
  ecode_legal := h.ecode_legal
  err_iff_ecode := h.err_iff_ecode
  latched_ok j hj := ⟨(h.latched_ok j hj).cmd_decodes, (h.latched_ok j hj).operands_held, (h.latched_ok j hj).validated⟩

end Sys2Proof.Machine
end

