-- ==== Sys2Proof/Tests/Slice0.lean ====
section
/-! SUPPORT. The model's own tests. Expected results are the spec's: vectors V1 to V8 of 95_test_vectors.md, the field layout
of 30_encoding.md R100, and hand calculation from the rule a test names. The second half shows, for every statement that has
hypotheses, operands that meet them all. -/

namespace Sys2Proof.Machine.Tests

/-! States -/

/-- Words written from word address `base` on. -/
def load (base : Nat) (ws : List Word) (m : Memory) : Memory :=
  ws.zipIdx.foldl (fun m p => writeWord m (base + p.2) p.1) m

/-- The idle machine (ADDR_W = 8) with its geometry and base registers set and an image in SRC. -/
def idle (w h : BitVec 16) (src dst scr : Word) (ws : List Word) : State :=
  { State.reset with
    width := w
    height := h
    srcBase := src
    dstBase := dst
    scrBase := scr
    pmem := load src.toNat ws [] }

/-- The same machine busy with a command. -/
def busyWith (i : Instr) (s : State) : State := { s with cmd := encode i, engine := some (latch i s) }

/-- The state with these events to come. -/
def withEvents (es : List Event) (s : State) : State := { s with events := es }

/-- The DST words that a command's completion leaves. -/
def dstAfter (i : Instr) (s : State) : List Word :=
  match exec i (busyWith i s) with
  | .next t => (List.range (s.width.toNat * s.height.toNat)).map fun k => readWord t.pmem (s.dstBase.toNat + k)
  | .fault _ => []
  | .refused _ => []

/-- What a field of the next state is. -/
def after {α : Type} (o : Host.Outcome State Fault Refusal) (f : State → α) : Option α :=
  match o with
  | .next t => some (f t)
  | .fault _ => none
  | .refused _ => none

/-! Well-formedness: PARAM is 8 bits (R103) -/

theorem test_wellFormed_refuses_pixelate_256 : (Instr.pixelate 256).wellFormed = false := by decide
theorem test_wellFormed_refuses_rblur_300 : (Instr.rblur 300).wellFormed = false := by decide
theorem test_wellFormed_refuses_rinvert_256 : (Instr.rinvert 256).wellFormed = false := by decide
theorem test_wellFormed_accepts_255 : (Instr.rinvert 255).wellFormed = true := by decide

/-! Decoding: words written out field by field from R100, `RSV1_PARAM_r_b_gg_oooo` -/

theorem test_decode_pack : decode 0b0000000000000000_00000000_0_0_00_0001 = .ok .pack := by decide
theorem test_decode_unpack : decode 0b0000000000000000_00000000_0_0_00_0010 = .ok .unpack := by decide
theorem test_decode_blur5 : decode 0b0000000000000000_00000000_0_0_00_0011 = .ok .blur5 := by decide
theorem test_decode_blur3 : decode 0b0000000000000000_00000000_0_0_00_0100 = .ok .blur3 := by decide
theorem test_decode_sobel_mean : decode 0b0000000000000000_00000000_0_0_01_0101 = .ok (.sobel .mean .copy) := by decide
theorem test_decode_sobel_lumt_zero : decode 0b0000000000000000_00000000_0_1_10_0101 = .ok (.sobel .lumt .zero) := by decide
theorem test_decode_pixelate : decode 0b0000000000000000_10000001_0_0_00_0110 = .ok (.pixelate 129) := by decide
theorem test_decode_rblur : decode 0b0000000000000000_00000110_0_0_00_0111 = .ok (.rblur 6) := by decide
theorem test_decode_rinvert : decode 0b0000000000000000_11111111_0_0_00_1000 = .ok (.rinvert 255) := by decide

/-- V2.1 to V2.4: reserved opcodes, checked before the reserved bits. -/
theorem test_decode_reserved_opcodes :
    [0x0, 0x9, 0xF, 0x10].map decode = List.replicate 4 (.error .opc) := by decide
/-- V2.6 to V2.10, V2.12, V2.15, V2.16. -/
theorem test_decode_reserved_bits :
    [0x11, 0x81, 0x10002, 0x35, 0x75, 0x105, 0x16, 0x80000003].map decode = List.replicate 8 (.error .rsvd) := by decide
/-- The table row of SOBEL, and a row with its operand bits set. -/
theorem test_decodeTableWord :
    decodeTableWord 32 0x5 = some (.sobel .lum .copy) ∧ decodeTableWord 16 0xFF06 = some (.pixelate 255) := by decide

/-! Issue: V2.17 to V2.29, the STATUS that the CMD write leaves (ADDR_W = 8) -/

/-- The STATUS after the CMD write of a word, and whether CMD holds the word. -/
def statusAfter (c : Word) (s : State) : Option (Word × Bool) :=
  after (step (s.withFetchWord 32 c.toNat)) fun t => (statusWord t, t.cmd == c)

theorem test_issue_overlap : statusAfter 0x4 (idle 16 16 0 0 0 []) = some (0x46, true) := by decide
theorem test_issue_range : statusAfter 0x4 (idle 16 16 1 5 0 []) = some (0x36, true) := by decide
theorem test_issue_apart : statusAfter 0x4 (idle 4 4 0 0x10 0 []) = some (0x1, true) := by decide
theorem test_issue_partial_overlap : statusAfter 0x6 (idle 4 4 0 0x08 0 []) = some (0x46, true) := by decide
theorem test_issue_in_place : statusAfter 0x6 (idle 4 4 0 0 0 []) = some (0x1, true) := by decide
theorem test_issue_scratch_overlap : statusAfter 0x7 (idle 4 4 0 0x10 0x18 []) = some (0x46, true) := by decide
theorem test_issue_top_of_memory : statusAfter 0x3 (idle 1 1 0xFF 0xFE 0 []) = some (0x1, true) := by decide
theorem test_issue_reserved_before_range : statusAfter 0x103 (idle 16 16 1 0 0 []) = some (0x26, true) := by decide
theorem test_issue_range_before_overlap : statusAfter 0x3 (idle 16 17 0 0 0 []) = some (0x36, true) := by decide
theorem test_issue_pack_needs_no_buffer : statusAfter 0x1 (idle 65535 65535 9 9 9 []) = some (0x1, true) := by decide

/-! The operations -/

/-- The idle machine with the four channel inputs. -/
def channels (a r g b : Word) : State := { State.reset with pkA := a, pkR := r, pkG := g, pkB := b }

/-- V1.1. -/
theorem test_pack : after (exec .pack (busyWith .pack (channels 255 10 20 30))) State.pkOut = some 0xFF0A141E := by
  decide
/-- V1.5: an out-of-range channel is no error. -/
theorem test_pack_out_of_range_completes :
    after (exec .pack (busyWith .pack (channels 0 256 0 0))) statusWord = some 0x2 := by decide
/-- V1.7. -/
theorem test_unpack :
    after (exec .unpack (busyWith .unpack { State.reset with upIn := 0x80FF0001 })) (fun t => (t.upA, t.upR, t.upG, t.upB)) =
      some (0x80, 0xFF, 0x00, 0x01) := by decide

/-- V3.4. -/
def row4 : List Word := [0x40000000, 0x40FFFFFF, 0x40000000, 0x40FFFFFF]
theorem test_blur3_row : dstAfter .blur3 (idle 4 1 0 16 0 row4) = [0x407F7F7F, 0x40555555, 0x40AAAAAA, 0x407F7F7F] := by
  decide +kernel
/-- V3.6: the average is truncated. -/
theorem test_blur3_truncates : dstAfter .blur3 (idle 2 1 0 16 0 [0xFF000000, 0xFF010101]) = [0xFF000000, 0xFF000000] := by
  decide +kernel
/-- V3.5. -/
theorem test_blur5_row : dstAfter .blur5 (idle 4 1 0 16 0 row4) = [0x40555555, 0x407F7F7F, 0x407F7F7F, 0x40AAAAAA] := by
  decide +kernel
/-- V3.8. -/
theorem test_blur5_six :
    dstAfter .blur5 (idle 6 1 0 16 0 [0xFF000000, 0xFF280000, 0xFF500000, 0xFF780000, 0xFFA00000, 0xFFC80000]) =
      [0xFF280000, 0xFF3C0000, 0xFF500000, 0xFF780000, 0xFF8C0000, 0xFFA00000] := by decide +kernel

/-- V4.18, V4.19: the tie 18.5 rounds up; the three grayscale formulas differ. -/
theorem test_sobel_formulas :
    ([GrayMode.lum, .mean, .lumt].map fun gm => (dstAfter (.sobel gm .copy) (idle 3 3 0 16 0
      [0xFF000000, 0xFF000000, 0xFF000000, 0xFF000000, 0xFF000000, 0xFF22001C, 0xFF000000, 0xFF000000, 0xFF000000]))[4]?) =
      [some 0xFF131313, some 0xFF282828, some 0xFF121212] := by decide +kernel
/-- V4.12: saturation at the centre, zeros at the border. -/
theorem test_sobel_zero_border :
    dstAfter (.sobel .lum .zero) (idle 3 3 0 16 0
      [0xFF000000, 0xFFFFFFFF, 0xFFFFFFFF, 0xFF000000, 0xFFFFFFFF, 0xFFFFFFFF, 0xFF000000, 0xFFFFFFFF, 0xFFFFFFFF]) =
      [0, 0, 0, 0, 0xFFFFFFFF, 0, 0, 0, 0] := by decide +kernel
/-- V4.6, V4.7, V4.8a to V4.8c. -/
theorem test_magnitude :
    [magnitude 1 (-3) (-4), magnitude 1 1020 1020, magnitude 10000 15000 0, magnitude 10000 14999 0,
      magnitude 10000 25000 0] = [5, 255, 2, 1, 3] := by decide +kernel

/-- V5.1, in place (V5.5): blocks of three sizes. -/
theorem test_pixelate_in_place :
    dstAfter (.pixelate 2) (idle 5 3 64 64 0
      [0x11000000, 0x220A0000, 0x33140000, 0x111E0000, 0x22280000, 0x22001400, 0x330A1401, 0x11141402, 0x221E1403,
       0x33281404, 0x33002800, 0x110A2802, 0x22142804, 0x331E2806, 0x11282808]) =
      [0xFF050A00, 0xFF050A00, 0xFF190A01, 0xFF190A01, 0xFF280A02, 0xFF050A00, 0xFF050A00, 0xFF190A01, 0xFF190A01,
       0xFF280A02, 0xFF052801, 0xFF052801, 0xFF192805, 0xFF192805, 0xFF282808] := by decide +kernel
/-- V5.4 with the default block size: one block, truncated means. -/
theorem test_pixelate_default : dstAfter (.pixelate 0) (idle 2 1 0 16 0 [0x00000000, 0x000103FF]) =
    [0xFF00017F, 0xFF00017F] := by decide +kernel

/-- V6.1: the blurs compound. -/
theorem test_rblur_impulse :
    dstAfter (.rblur 1) (idle 3 3 0 16 32
      [0xFF000000, 0xFF000000, 0xFF000000, 0xFF000000, 0xFFFF0000, 0xFF000000, 0xFF000000, 0xFF000000, 0xFF000000]) =
      List.replicate 9 0xFF2B0000 := by decide +kernel
/-- V6.2: the default threshold, the order of the quadrants. -/
theorem test_rblur_quadrant_order :
    dstAfter (.rblur 0) (idle 4 4 0 16 32
      [0xFF0000FF, 0xFF1000EF, 0xFF2000DF, 0xFF3000CF, 0xFF4000BF, 0xFF5000AF, 0xFF60009F, 0xFF70008F,
       0xFF80007F, 0xFF90006F, 0xFFA0005F, 0xFFB0004F, 0xFFC0003F, 0xFFD0002F, 0xFFE0001F, 0xFFF0000F]) =
      [0xFF3C00C3, 0xFF4200BC, 0xFF5200AC, 0xFF5400AB, 0xFF5600A8, 0xFF5D00A1, 0xFF6B0093, 0xFF6E0090,
       0xFF850078, 0xFF8C0072, 0xFF94006A, 0xFF9C0062, 0xFF9C0063, 0xFFA2005C, 0xFFAA0054, 0xFFB4004B] := by decide +kernel

/-- V7.2. -/
theorem test_rinvert :
    dstAfter (.rinvert 1) (idle 2 2 0 16 0 [0x80102030, 0xFF000000, 0x00FFFFFF, 0x12345678]) =
      [0x80EFDFCF, 0xFFFFFFFF, 0x00000000, 0x12CBA987] := by decide +kernel
/-- V7.4: the base regions of a 5×3 traversal with T = 1. -/
theorem test_rinvert_leaves :
    (visit 1 traversalLevels ⟨0, 0, 5, 3⟩).filter (·.isBase 1) =
      [⟨0, 0, 2, 1⟩, ⟨2, 0, 3, 1⟩, ⟨0, 1, 1, 1⟩, ⟨1, 1, 1, 1⟩, ⟨0, 2, 1, 1⟩, ⟨1, 2, 1, 1⟩, ⟨2, 1, 1, 1⟩, ⟨3, 1, 2, 1⟩,
       ⟨2, 2, 1, 1⟩, ⟨3, 2, 2, 1⟩] := by decide +kernel

/-! Ports and lifecycle: V8 -/

/-- A busy machine: BLUR3 on a 1×1 image. -/
def busy1 : State := busyWith .blur3 (idle 1 1 0 16 0 [0x80102030])

/-- V8.1: a CMD write in BUSY is dropped. -/
theorem test_cmd_write_busy :
    after (step (withEvents [.host (.csrWrite 0x004 0x8)] busy1)) (fun t => (t.cmd, statusWord t)) = some (0x4, 0x9) := by
  decide
/-- V8.2. -/
theorem test_pmem_read_busy :
    after (step (withEvents [.host (.pmemRead 0)] busy1)) (fun t => (t.response, t.accErr)) =
      some (some ⟨false, some 0⟩, true) := by decide
/-- V8.6 (first half): completion with IE = 1 raises irq; the 1×1 image is copied (R203). -/
theorem test_completion_raises_irq :
    after (step { busy1 with ie := true }) (fun t => (irq t, t.busy, readWord t.pmem 16)) =
      some (true, false, 0x80102030) := by decide +kernel
/-- V8.9. -/
theorem test_status_write_clears_error :
    after (step { State.reset with done := true, err := true, ecode := 3, events := [.host (.csrWrite 0x008 0x4)] })
      statusWord = some 0x2 := by decide
/-- V8.10: reset while RBLUR is busy. -/
theorem test_reset_busy :
    after (step (withEvents [.reset] (busyWith (.rblur 0) (idle 1 1 0 16 32 [0x80102030]))))
      (fun t => (statusWord t, t.cmd, t.width, readWord t.pmem 0)) = some (0, 0, 0, 0x80102030) := by decide +kernel
/-- V8.11. -/
theorem test_misaligned_read :
    after (step (withEvents [.host (.csrRead 0x002)] State.reset)) State.response = some (some ⟨true, some 0⟩) := by decide
/-- V8.12. -/
theorem test_unmapped_read :
    after (step (withEvents [.host (.csrRead 0xFFC)] State.reset)) State.response = some (some ⟨false, some 0⟩) := by decide
/-- V8.13, V8.14. -/
theorem test_field_widths :
    after (step (withEvents [.host (.csrWrite 0x010 0xFFFFFFFF)] State.reset)) (readCsr · .width) = some 0xFFFF ∧
    after (step (withEvents [.host (.csrWrite 0x018 0xFFFFFFFF)] State.reset)) (readCsr · .srcBase) = some 0xFF := by decide

/-! Witnesses: states and operands that meet a statement's hypotheses, at the boundaries of each clause -/

/-- Three buffers that end at the top of PMEM. -/
def top : State := idle 4 4 0xD0 0xE0 0xF0 []
/-- The same with SRC and DST one buffer. -/
def inPlace : State := idle 4 4 0xE0 0xE0 0xF0 []
/-- The hypotheses of a statement about a command's execution. -/
abbrev Runs (i : Instr) (s : State) : Prop :=
  (busyWith i s).engine = some (latch i s) ∧ inRange (busyWith i s).addrW.words i (latch i s) = true ∧
    aliasingViolation i (latch i s) = false
/-- The idle machine with one host transaction to come. -/
def hosting (t : Txn) : State := withEvents [.host t, .engine] top
/-- A busy machine with one host transaction to come. -/
def busyHosting (t : Txn) : State := withEvents [.host t, .engine] (busyWith (.rblur 0) top)

theorem test_witness_EncodedCommandDecodesBack :
    ∀ i ∈ [Instr.pack, .unpack, .blur5, .blur3, .sobel .lumt .zero, .pixelate 255, .rblur 0, .rinvert 255],
      i.wellFormed = true := by decide

theorem test_witness_DecodedWordEncodesBack : decode 0xFF06 = .ok (.pixelate 255) ∧ decode 0x65 = .ok (.sobel .lumt .zero) := by
  decide

theorem test_witness_DecodeFollowsThreeCases :
    opField 0x0 = 0 ∧ 9 ≤ (opField 0x9).toNat ∧ 9 ≤ (opField 0xFFFFFFFF).toNat ∧
    (rsv1Field 0x80000001 ≠ 0 ∧ rsv0Field 0x88 ≠ 0 ∧ (paramField 0x105).toNat ≠ 0 ∧ opField 0x105 = 5 ∧
      bzField 0x46 ≠ 0 ∧ opField 0x46 = 6 ∧ (gmField 0x35).toNat = 3 ∧ opField 0x35 = 5) ∧
    (rsv1Field 0xFF06 = 0 ∧ rsv0Field 0xFF06 = 0 ∧ bzField 0xFF06 = 0 ∧ gmField 0xFF06 = 0 ∧ opField 0xFF06 = 6) := by decide

theorem test_witness_StepRunsDecodedCommand :
    (hosting (.csrWrite 0x004 0x808)).engine = none ∧
    (hosting (.csrWrite 0x004 0x808)).events = .host (.csrWrite 0x004 0x808) :: [.engine] ∧
    decode 0x808 = .ok (.rinvert 8) := by decide

theorem test_witness_IllegalWordIsRejected :
    (hosting (.csrWrite 0x004 0x0)).engine = none ∧
    (hosting (.csrWrite 0x004 0x0)).events = .host (.csrWrite 0x004 0x0) :: [.engine] ∧
    decode 0x0 = .error .opc ∧ decode 0x35 = .error .rsvd := by decide

theorem test_witness_EngineTurnRunsLatchedCommand :
    busy1.engine = some (latch .blur3 (idle 1 1 0 16 0 [0x80102030])) ∧ busy1.events = [] ∧
    (withEvents [.engine] busy1).events = .engine :: [] ∧ State.reset.engine = none ∧ State.reset.events = [] := by decide

/-- SRC, DST and SCR each end one word past PMEM. -/
theorem test_witness_BufferPastMemoryIsRejected :
    (let s := idle 4 4 0xF1 0 0 []
     s.engine = none ∧ isImageCommand .blur3 = true ∧ 2 ^ s.addrW.val < s.srcBase.toNat + s.width.toNat * s.height.toNat) ∧
    (let s := idle 4 4 0 0xF1 0 []
     s.engine = none ∧ 2 ^ s.addrW.val < s.dstBase.toNat + s.width.toNat * s.height.toNat) ∧
    (let s := idle 4 4 0 0 0xF1 []
     s.engine = none ∧ isImageCommand (.rblur 0) = true ∧
       2 ^ s.addrW.val < s.scrBase.toNat + s.width.toNat * s.height.toNat) := by decide

/-- Buffers of 16 words that end at the top of PMEM; SRC and DST share their last and first word, or none. A command other
than RBLUR leaves SCR free to lie past PMEM; RBLUR does not. -/
theorem test_witness_AliasingDecidesAcceptance :
    top.engine = none ∧ isImageCommand .blur3 = true ∧ 0xD0 + 16 ≤ 2 ^ top.addrW.val ∧ 0xF0 + 16 ≤ 2 ^ top.addrW.val ∧
    (let s := idle 4 4 0xE0 0xF0 0xF1 []
     s.engine = none ∧ s.srcBase.toNat + 16 ≤ 2 ^ s.addrW.val ∧ s.dstBase.toNat + 16 ≤ 2 ^ s.addrW.val ∧
       ¬ (s.scrBase.toNat + 16 ≤ 2 ^ s.addrW.val) ∧ ¬ ∃ p, Instr.blur3 = .rblur p) ∧
    shareWord 0xE1 0xF0 16 ∧ ¬ shareWord 0xE0 0xF0 16 ∧ ¬ shareWord 0xE0 0xE0 0 := by
  refine ⟨rfl, rfl, by decide, by decide, ⟨rfl, by decide, by decide, by decide, by simp⟩,
    ⟨0xF0, by simp [inExtent]⟩, ?_, ?_⟩ <;>
  · rintro ⟨a, h1, h2⟩
    simp only [inExtent] at h1 h2
    omega

theorem test_witness_PackAndUnpackAreAlwaysAccepted : (idle 65535 65535 0xFF 0xFF 0xFF []).engine = none := by decide

theorem test_witness_ZeroAreaImageCompletesUntouched :
    let s := idle 0 65535 0xFF 0xFF 0xFF []
    isImageCommand (.rblur 255) = true ∧ s.engine = none ∧ s.width = 0 ∧ s.srcBase.toNat < 2 ^ s.addrW.val ∧
    (idle 65535 0 0 0 0 []).height = 0 ∧
    (busyWith (.rblur 255) s).engine = some (latch (.rblur 255) s) ∧ (latch (.rblur 255) s).w = 0 ∧
    (latch (.rblur 255) s).scr.toNat < 2 ^ s.addrW.val := by decide

/-- SRC, DST and SCR each end one word past PMEM. -/
theorem test_witness_LatchedBufferPastMemoryFaults :
    isImageCommand (.rblur 0) = true ∧
    (busyWith (.rblur 0) (idle 4 4 0 0 0xF1 [])).engine = some (latch (.rblur 0) (idle 4 4 0 0 0xF1 [])) ∧
    2 ^ 8 < (latch (.rblur 0) (idle 4 4 0 0 0xF1 [])).scr.toNat + 4 * 4 ∧
    2 ^ 8 < (latch .blur3 (idle 4 4 0xF1 0 0 [])).src.toNat + 4 * 4 ∧
    2 ^ 8 < (latch .blur3 (idle 4 4 0 0xF1 0 [])).dst.toNat + 4 * 4 := by decide

theorem test_witness_PackWritesPackedColor :
    let s := channels 0 255 1 255
    (busyWith .pack s).engine = some (latch .pack s) ∧ (latch .pack s).pkA.toNat ≤ 255 ∧ (latch .pack s).pkR.toNat ≤ 255 ∧
    (latch .pack s).pkG.toNat ≤ 255 ∧ (latch .pack s).pkB.toNat ≤ 255 := by decide

theorem test_witness_PackOutOfRangeCompletes :
    let s := channels 256 0 0 0xFFFFFFFF
    (busyWith .pack s).engine = some (latch .pack s) ∧ 255 < (latch .pack s).pkA.toNat ∧ 255 < (latch .pack s).pkB.toNat ∧
    255 < (latch .pack (channels 0 256 0 0)).pkR.toNat ∧ 255 < (latch .pack (channels 0 0 256 0)).pkG.toNat := by decide

theorem test_witness_UnpackExtractsChannels : (busyWith .unpack top).engine = some (latch .unpack top) := by decide

theorem test_witness_PackThenUnpackReturnsChannels :
    let s := channels 255 10 20 0
    s.engine = none ∧ s.pkA.toNat ≤ 255 ∧ s.pkR.toNat ≤ 255 ∧ s.pkG.toNat ≤ 255 ∧ s.pkB.toNat ≤ 255 := by decide

/-- A 1×1 image, and the last pixel of the largest. -/
theorem test_witness_WindowSampleCount :
    ((0 < 1 ∧ 0 < 1) ∧ (1 = 1 ∨ 1 = 2)) ∧ ((65534 < 65535 ∧ 65534 < 65535) ∧ (2 = 1 ∨ 2 = 2)) := by decide

theorem test_witness_BoxAverageIsWindowMean : (0 < 1 ∧ 0 < 1) ∧ (65534 < 65535 ∧ 65534 < 65535) := by decide

/-- A corner of a 3×2 image: equal samples, and samples between bounds. -/
theorem test_witness_BoxAverageLaws :
    let f : Picture := fun _ _ => 0x12345678
    (2 < 3 ∧ 1 < 2) ∧ (∀ q ∈ window 3 2 2 1 1, f q.1 q.2 = 0x12345678) ∧
    (∀ q ∈ window 3 2 2 1 1, 0x34 ≤ (chR (f q.1 q.2)).toNat ∧ (chR (f q.1 q.2)).toNat ≤ 0x34) := by decide

theorem test_witness_BoxBlurWritesEveryPixel : Runs .blur5 top ∧ Runs .blur3 top := by decide

theorem test_witness_IntegerSquareRoot : 3 * 3 ≤ 15 := by decide

theorem test_witness_MagnitudeRoundsHalfUp : 1 ≤ 10000 ∧ (1 ≤ 1 ∧ 1 ≤ 255) ∧ (1 ≤ 255 ∧ 255 ≤ 255) := by decide

/-- The corner and the one interior pixel of a 3×3 image. -/
theorem test_witness_SobelWritesEveryPixel :
    Runs (.sobel .lum .copy) top ∧ Runs (.sobel .lumt .zero) (idle 3 3 0xEE 0xF7 0 []) ∧
    (2 < 3 ∧ 2 = 3 - 1) ∧ (1 < 3 ∧ 1 ≤ 1 ∧ 1 ≤ 3 - 2) := by decide

/-- The uniform 3×3 image of V4.9, and the same with another alpha, which no grayscale value sees. -/
theorem test_witness_SobelInteriorLaws :
    let src : Image := ⟨0, 3, 3⟩
    let m := load 0 (List.replicate 9 0x80336699) []
    let m' := load 0 (List.replicate 9 0x7F336699) []
    (1 ≤ 1 ∧ 1 + 2 ≤ src.w ∧ 1 + 2 ≤ src.h) ∧ (∀ u < 3, ∀ v < 3, src.pix m u v = 0x80336699) ∧
    (∀ u < 3, ∀ v < 3, gray .lum (src.pix m u v) = gray .lum (src.pix m' u v)) := by decide +kernel

theorem test_witness_BlocksPartitionImage : 1 ≤ 2 ∧ (⟨4, 2, 1, 1⟩ : Region) ∈ blocks 2 5 3 := by decide

theorem test_witness_PixelateWritesBlockMeans :
    Runs (.pixelate 0) top ∧ Runs (.pixelate 255) inPlace ∧ (3 < 4 ∧ 3 < 4) := by decide

/-- Both runs in place; and both out of place, the second from the first one's DST to the top of PMEM. -/
theorem test_witness_PixelateIsIdempotent :
    (Runs (.pixelate 3) inPlace ∧ (latch (.pixelate 3) inPlace).src = (latch (.pixelate 3) inPlace).dst) ∧
    (let j := latch (.pixelate 3) top
     let k := latch (.pixelate 3) (idle 4 4 0xE0 0xF0 0 [])
     Runs (.pixelate 3) top ∧ k.src = j.dst ∧ k.w = j.w ∧ k.h = j.h ∧
       inRange (busyWith (.pixelate 3) top).addrW.words (.pixelate 3) k = true ∧ aliasingViolation (.pixelate 3) k = false ∧
       3 < j.w.toNat ∧ 3 < j.h.toNat) := by decide

/-- The largest image with the least threshold; a base region and one that is split. -/
theorem test_witness_TraversalIsDepthFirstPreorder :
    let r : Region := ⟨0, 0, 65535, 65535⟩
    1 ≤ 1 ∧ r.w < 2 ^ 16 ∧ r.h < 2 ^ 16 ∧ ¬ (r.w ≤ 1 ∨ r.h ≤ 1) ∧ ((⟨0, 0, 65535, 1⟩ : Region).w ≤ 1 ∨
      (⟨0, 0, 65535, 1⟩ : Region).h ≤ 1) := by decide

theorem test_witness_TraversalWorkIsBounded :
    1 ≤ 1 ∧ (⟨0, 0, 65535, 65535⟩ : Region).w < 2 ^ 16 ∧ (⟨0, 0, 65535, 65535⟩ : Region).h < 2 ^ 16 := by decide

theorem test_witness_RecursiveBlurCompounds : Runs (.rblur 0) top ∧ Runs (.rblur 1) inPlace ∧ (3 < 4 ∧ 3 < 4) := by decide

/-- The laws' cases: a threshold that makes the root a base region, and a uniform image. -/
theorem test_witness_RecursiveBlurLaws :
    Runs (.rblur 4) top ∧ (∃ u, exec (.rblur 4) (busyWith (.rblur 4) top) = .next u) ∧ 4 ≤ 4 ∧
    Runs (.rblur 0) (idle 1 2 0xF0 0xF4 0xF8 [5, 5]) ∧
    (∀ y < 2, (latch (.rblur 0) (idle 1 2 0xF0 0xF4 0xF8 [])).srcImage.picture (idle 1 2 0xF0 0xF4 0xF8 [5, 5]).pmem 0 y = 5) :=
  ⟨by decide, ⟨_, rfl⟩, by decide, by decide, by decide +kernel⟩

theorem test_witness_RecursiveInvertInvertsEveryPixel : Runs (.rinvert 0) top ∧ Runs (.rinvert 255) inPlace ∧ (3 < 4 ∧ 3 < 4) := by
  decide

theorem test_witness_RecursiveInvertTwiceRestores :
    Runs (.rinvert 1) inPlace ∧ (latch (.rinvert 1) inPlace).src = (latch (.rinvert 1) inPlace).dst := by decide

/-- Events of the port statements, idle and busy. -/
theorem test_witness_port_events (t : Txn) :
    (hosting t).events = .host t :: [.engine] ∧ (hosting t).engine = none ∧ (hosting t).busy = false ∧
    (busyHosting t).events = .host t :: [.engine] ∧ (busyHosting t).busy = true := ⟨rfl, rfl, rfl, rfl, rfl⟩

theorem test_witness_IdIsConstant :
    (busyHosting (.csrRead 0x000)).events = .host (.csrRead 0x000) :: [.engine] ∧
    (hosting (.csrWrite 0x000 1)).events = .host (.csrWrite 0x000 1) :: [.engine] := ⟨rfl, rfl⟩

theorem test_witness_RegistersReadAsMapped :
    let s := busyHosting (.csrRead 0x048)
    ((0x048 : BitVec 12), s.upB.setWidth 32) ∈ [((0x004 : BitVec 12), s.cmd), (0x048, s.upB.setWidth 32)] ∧
    s.events = .host (.csrRead 0x048) :: [.engine] := ⟨by decide, rfl⟩

theorem test_witness_StatusReadsItsFields :
    (busyHosting (.csrRead 0x008)).events = .host (.csrRead 0x008) :: [.engine] := rfl

theorem test_witness_StatusWriteOneClears :
    (busyHosting (.csrWrite 0x008 0xE)).events = .host (.csrWrite 0x008 0xE) :: [.engine] := rfl

theorem test_witness_CtrlWriteSetsInterruptEnable :
    (busyHosting (.csrWrite 0x00C 1)).events = .host (.csrWrite 0x00C 1) :: [.engine] := rfl

theorem test_witness_OperandRegistersStoreTheirFields :
    (hosting (.csrWrite 0x018 0xFFFFFFFF)).engine = none ∧
    (hosting (.csrWrite 0x018 0xFFFFFFFF)).events = .host (.csrWrite 0x018 0xFFFFFFFF) :: [.engine] := ⟨rfl, rfl⟩

theorem test_witness_BusyGateOnCsrPort :
    (busyHosting (.csrWrite 0x038 1)).busy = true ∧
    (busyHosting (.csrWrite 0x038 1)).events = .host (.csrWrite 0x038 1) :: [.engine] ∧
    (0x038 : BitVec 12) ∈ [(0x004 : BitVec 12), 0x038] ∧
    (busyHosting (.csrRead 0xFFF)).events = .host (.csrRead 0xFFF) :: [.engine] := ⟨rfl, rfl, by decide, rfl⟩

theorem test_witness_UnmappedAndReadOnlyOffsets :
    (0x04C : BitVec 12).toNat % 4 = 0 ∧ 0x04C ≤ (0x04C : BitVec 12).toNat ∧ (0xFFC : BitVec 12).toNat % 4 = 0 ∧
    0x04C ≤ (0xFFC : BitVec 12).toNat ∧ (0x048 : BitVec 12).toNat % 4 = 0 := by decide

theorem test_witness_MisalignedCsrAccessHasNoEffect :
    (0x001 : BitVec 12).toNat % 4 ≠ 0 ∧ (0x006 : BitVec 12).toNat % 4 ≠ 0 ∧ (0xFFF : BitVec 12).toNat % 4 ≠ 0 := by decide

theorem test_witness_PmemPortObeysBusyGate :
    (0xFF : Word).toNat < 2 ^ (hosting (.pmemRead 0xFF)).addrW.val ∧
    (hosting (.pmemWrite 0xFF 1)).busy = false ∧ (busyHosting (.pmemWrite 0xFF 1)).busy = true ∧
    (hosting (.pmemWrite 0xFF 1)).events = .host (.pmemWrite 0xFF 1) :: [.engine] ∧
    (busyHosting (.pmemRead 0xFF)).events = .host (.pmemRead 0xFF) :: [.engine] := by decide

theorem test_witness_InterruptIsLevelOfDone :
    ({ top with ie := true } : State).ie = true ∧
    (withEvents [.reset] top).events = .reset :: [] ∧
    (hosting (.csrWrite 0x00C 0)).events = .host (.csrWrite 0x00C 0) :: [.engine] ∧
    (hosting (.csrWrite 0x008 2)).events = .host (.csrWrite 0x008 2) :: [.engine] := by decide

theorem test_witness_ResetClearsEveryRegister : (withEvents [.reset, .engine] busy1).events = .reset :: [.engine] := by decide

/-- A byte outside DST and SCR of a busy RBLUR, one of each side, and a reset in IDLE. -/
theorem test_witness_ResetKeepsUnwrittenMemory :
    let s := withEvents [.reset] (busyWith (.rblur 0) top)
    let j := latch (.rblur 0) top
    s.events = .reset :: [] ∧ s.engine = some j ∧ ¬ (4 * j.dstImage.base ≤ 4 * 0xE0 - 1) ∧
    (withEvents [.reset] top).engine = none := by decide

/-- A machine right after an acceptance meets the invariant. -/
theorem inv_busyWith (i : Instr) (s : State) (h : s.pmem.wf = true ∧ (∀ c ∈ s.pmem, c.1 < 4 * s.addrW.words) ∧
    s.srcBase.toNat < s.addrW.words ∧ s.dstBase.toNat < s.addrW.words ∧ s.scrBase.toNat < s.addrW.words ∧
    s.ecode = 0 ∧ s.err = false ∧ decode (encode i) = .ok i ∧ validate s.addrW.words i (latch i s) = none) :
    Inv (busyWith i s) where
  pmem_wf := h.1
  pmem_bounded := h.2.1
  src_bounded := h.2.2.1
  dst_bounded := h.2.2.2.1
  scr_bounded := h.2.2.2.2.1
  ecode_legal := by simp [busyWith, h.2.2.2.2.2.1]
  err_iff_ecode := by simp [busyWith, h.2.2.2.2.2.1, h.2.2.2.2.2.2.1]
  latched_ok := by
    intro j hj
    obtain rfl : latch i s = j := by injection hj
    exact ⟨h.2.2.2.2.2.2.2.1, rfl, h.2.2.2.2.2.2.2.2⟩

theorem test_witness_inv_busy : Inv (busyWith (.rblur 0) top) := inv_busyWith _ _ (by decide)

theorem test_witness_StepKeepsInvariantAndNeverStops : ∃ s : State, Inv s ∧ s.busy = true :=
  ⟨busyWith (.rblur 0) top, test_witness_inv_busy, rfl⟩

/-- Completion of RBLUR, out of place, at a byte of SRC, which it does not write, and issue. -/
theorem test_witness_CommandWritesOnlyItsBuffers :
    (∃ t, exec (.rblur 0) (busyWith (.rblur 0) top) = .next t) ∧ (∃ t, exec (.rblur 0) top = .next t) ∧
    ¬ (latch (.rblur 0) top).dstImage.hasByte (4 * 0xD0) ∧ ¬ (latch (.rblur 0) top).scrImage.hasByte (4 * 0xD0) ∧
    Runs (.rblur 0) top ∧ (latch (.rblur 0) top).src ≠ (latch (.rblur 0) top).dst ∧
    (latch (.rblur 0) top).srcImage.hasByte (4 * 0xD0) :=
  ⟨⟨_, rfl⟩, ⟨_, rfl⟩, fun h => absurd h.1 (by decide), fun h => absurd h.1 (by decide), by decide, by decide,
    by decide, by decide⟩

/-- Two machines that differ in SCR, in a word outside every buffer and in a register. -/
theorem test_witness_ResultDependsOnlyOnOperands :
    let s := busyWith (.rblur 0) (idle 1 1 0xD0 0xE0 0xF0 [5])
    let s' := { s with pmem := load 0xF0 [6] (load 0 [7] s.pmem), pkOut := 1 }
    let j := latch (.rblur 0) (idle 1 1 0xD0 0xE0 0xF0 [5])
    s.engine = some j ∧ s'.engine = some j ∧ s.addrW = s'.addrW ∧ inRange s.addrW.words (.rblur 0) j = true ∧
    aliasingViolation (.rblur 0) j = false ∧ j.srcImage.pix s.pmem 0 0 = j.srcImage.pix s'.pmem 0 0 := by decide +kernel

/-- A busy RBLUR, with a byte of SRC; and a busy PACK with its channels in range. -/
theorem test_witness_HostCannotDisturbRunningCommand :
    (busyWith (.rblur 0) top).engine = some (latch (.rblur 0) top) ∧
    (∃ t, engineTurn (busyWith (.rblur 0) top) = .next t) ∧ ¬ (latch (.rblur 0) top).scrImage.hasByte (4 * 0xD0) ∧
    (busyWith .pack (channels 255 0 0 255)).engine = some (latch .pack (channels 255 0 0 255)) ∧
    channelsInRange (latch .pack (channels 255 0 0 255)) = true :=
  ⟨rfl, ⟨_, rfl⟩, fun h => absurd h.1 (by decide), rfl, by decide⟩

/-- BUSY rises at a CMD write, falls at an engine turn and at a reset. -/
theorem test_witness_BusyChangesOnlyByLifecycle :
    (after (step (hosting (.csrWrite 0x004 0x7))) State.busy = some true ∧ (hosting (.csrWrite 0x004 0x7)).busy = false) ∧
    (after (step (busyWith (.rinvert 0) top)) State.busy = some false ∧ (busyWith (.rinvert 0) top).busy = true) ∧
    (after (step (withEvents [.reset] busy1)) State.busy = some false ∧ busy1.busy = true) := by decide +kernel

theorem test_witness_AcceptedCommandCompletes :
    Inv (withEvents [.host (.csrRead 0x008), .engine] (busyWith (.rblur 0) top)) ∧
    (withEvents [.host (.csrRead 0x008), .engine] (busyWith (.rblur 0) top)).busy = true ∧
    ∀ e ∈ [Event.host (.csrRead 0x008), .engine], e ≠ .reset := by
  refine ⟨?_, rfl, by decide⟩
  have h := test_witness_inv_busy
  exact { h with
    latched_ok := fun j hj =>
      ⟨(h.latched_ok j hj).cmd_decodes, (h.latched_ok j hj).operands_held, (h.latched_ok j hj).validated⟩ }

/-- Busy states in which the next command's word is illegal, passes validation (P5), aliases, or reaches past PMEM. -/
theorem test_witness_CompletionAndCmdWriteInBothOrders :
    (Inv (busyWith (.rblur 0) top) ∧ (busyWith (.rblur 0) top).busy = true) ∧
    (decode 0x9 = .error .opc ∧ decode 0x35 = .error .rsvd ∧ (0x2 : Word).getLsbD 1 = true) ∧
    (decode 0x8 = .ok (.rinvert 0) ∧ validate 256 (.rinvert 0) (latch (.rinvert 0) top) = none) ∧
    (Inv (busyWith (.rblur 0) inPlace) ∧ decode 0x4 = .ok .blur3 ∧ validate 256 .blur3 (latch .blur3 inPlace) = some .overlap) ∧
    (let s := idle 4 4 0xD0 0xE0 0xF1 []
     Inv (busyWith .blur3 s) ∧ decode 0x7 = .ok (.rblur 0) ∧ validate 256 (.rblur 0) (latch (.rblur 0) s) = some .range) :=
  ⟨⟨test_witness_inv_busy, rfl⟩, by decide, by decide, ⟨inv_busyWith _ _ (by decide), by decide, by decide⟩,
    ⟨inv_busyWith _ _ (by decide), by decide, by decide⟩⟩

theorem test_witness_WordWriteIsReadBack :
    Memory.wf [(3, 1), (7, 2)] = true ∧ 3 / 4 ≠ 1 ∧ 8 / 4 ≠ 1 ∧ 3 < 4 := by decide

end Sys2Proof.Machine.Tests
end

section
/-! Proofs of the statements about the scope's definitions (00_scope.md). -/

namespace Sys2Proof.Machine

/-- Settles O22: the bit-by-bit loop computes the library's square root, which has both halves of R9. -/
theorem integerSquareRoot : Obligations.IntegerSquareRoot := by
  intro n
  rw [isqrt_eq_sqrt]
  exact ⟨Nat.sqrt_le n, fun m hm => Nat.le_sqrt.2 hm⟩

end Sys2Proof.Machine
end


section
/-! Laws of the CSR port for a register at its own offset (10_state.md R22, R31), and of the CMD write (R26). -/

namespace Sys2Proof.Machine

/-- The offset of a register: four bytes for each register before it in the CSR map (R22). -/
def Csr.offset (r : Csr) : BitVec 12 := BitVec.ofNat 12 (4 * csrMap.idxOf r)

@[simp] theorem csrAt_offset (r : Csr) : csrAt r.offset = some r := by cases r <;> rfl

@[simp] theorem aligned_offset (r : Csr) : aligned r.offset = true := by cases r <;> rfl

/-- No other aligned offset names the register (R22). -/
theorem eq_offset_of_csrAt {o : BitVec 12} {r : Csr} (ha : aligned o = true) (hr : csrAt o = some r) :
    o = r.offset := by
  have ho := (aligned_iff o).1 ha
  have hro := (aligned_iff r.offset).1 (aligned_offset r)
  have hlt : o.toNat / 4 < csrMap.length := (List.getElem?_eq_some_iff.1 hr).1
  have hidx : o.toNat / 4 = r.offset.toNat / 4 :=
    (List.getElem?_inj hlt (by decide)).1 (hr.trans (csrAt_offset r).symm)
  exact BitVec.eq_of_toNat_eq (by omega)

/-- A host read of a register answers its value and changes nothing else, busy or not (R22, R31). -/
theorem step_csrRead_offset {s : State} {rest : List Event} (r : Csr)
    (h : s.events = .host (.csrRead r.offset) :: rest) :
    step s = .next { s with events := rest, response := some ⟨false, some (readCsr s r)⟩ } := by
  rw [step_cons h]
  have hread : readCsr { s with events := rest } r = readCsr s r := by cases r <;> rfl
  simp only [handle, transact, csrRead_mapped (aligned_offset r) (csrAt_offset r), hread, answer]

/-- A host write of a register is acknowledged and goes to the register (R22). -/
theorem step_csrWrite_offset {s : State} {v : Word} {rest : List Event} {r : Csr}
    (h : s.events = .host (.csrWrite r.offset v) :: rest) :
    step s = writeRegister r v (acknowledge { s with events := rest }) :=
  (step_cons h).trans (csrWrite_mapped (aligned_offset r) (csrAt_offset r) v _)

/-- A host write of a register that the busy gate lets through, and that is not CMD, only stores (R22 to R35). -/
theorem step_csrWrite_store {s : State} {v : Word} {rest : List Event} {r : Csr} (hc : r ≠ .cmd)
    (hg : r.gated = false ∨ s.busy = false) (h : s.events = .host (.csrWrite r.offset v) :: rest) :
    step s = .next (storeCsr (acknowledge { s with events := rest }) v r) := by
  rw [step_csrWrite_offset h]
  exact writeRegister_store (s := acknowledge { s with events := rest }) hc hg v

/-- The busy gate: a host write of a gated register in BUSY sets ACCERR and is dropped (R31). -/
theorem step_csrWrite_refused {s : State} {v : Word} {rest : List Event} {r : Csr} (hg : r.gated = true)
    (hb : s.busy = true) (h : s.events = .host (.csrWrite r.offset v) :: rest) :
    step s = .next (refuseAccess (acknowledge { s with events := rest })) := by
  rw [step_csrWrite_offset h]
  exact writeRegister_refused (s := acknowledge { s with events := rest }) hg hb v

/-- A CMD write in IDLE stores the word and issues it (R26, R160). -/
theorem step_cmdWrite {s : State} {c : Word} {rest : List Event} (hi : s.engine = none)
    (h : s.events = .host (.csrWrite 0x004 c) :: rest) :
    step s = issueWord c { s with events := rest, cmd := c, response := some ⟨false, none⟩ } := by
  rw [step_csrWrite_offset (r := .cmd) h]
  exact writeRegister_cmd (s := acknowledge { s with events := rest }) hi c

/-- The read-only registers of the CSR map (R22). -/
def readOnlyCsrs : List Csr := [.id, .pkOut, .upA, .upR, .upG, .upB]

/-- A write of a read-only register stores nothing (R23). -/
theorem storeCsr_readOnly {r : Csr} (hr : r ∈ readOnlyCsrs) (v : Word) (s : State) : storeCsr s v r = s := by
  fin_cases hr <;> rfl

/-- A read-only register is neither CMD nor busy-gated (R22, R31). -/
theorem readOnly_ungated {r : Csr} (hr : r ∈ readOnlyCsrs) : r ≠ .cmd ∧ r.gated = false := by
  fin_cases hr <;> decide

/-- The four flags of STATUS in bits 0 to 3 (R27). -/
theorem statusWord_flags (s : State) :
    (statusWord s).getLsbD 0 = s.busy ∧ (statusWord s).getLsbD 1 = s.done ∧ (statusWord s).getLsbD 2 = s.err ∧
      (statusWord s).getLsbD 3 = s.accErr := by
  simp only [statusWord, BitVec.getLsbD_append, BitVec.getLsbD_ofBool]
  simp

/-- Past its four flags, STATUS is ECODE under 24 zero bits (R27). -/
theorem extract_statusWord (s : State) {start : Nat} (h : 4 ≤ start) (len : Nat) :
    (statusWord s).extractLsb' start len = (0#24 ++ s.ecode).extractLsb' (start - 4) len := by
  rw [statusWord, BitVec.extractLsb'_append_eq_of_le (by omega), BitVec.extractLsb'_append_eq_of_le (by omega),
    BitVec.extractLsb'_append_eq_of_le (by omega), BitVec.extractLsb'_append_eq_of_le (by omega)]
  rfl

@[simp] theorem storeCsr_engine (s : State) (v : Word) (r : Csr) : (storeCsr s v r).engine = s.engine := by
  cases r <;> rfl

end Sys2Proof.Machine
end

section
/-! What can change BUSY (10_state.md R27): each event in turn. -/

namespace Sys2Proof.Machine

@[simp] theorem resetMachine_engine (s : State) : (resetMachine s).engine = none := rfl

/-- In IDLE a CSR write of any register but CMD leaves the engine IDLE: only a CMD write issues (R26). -/
theorem csrWrite_keeps_idle {o : BitVec 12} {v : Word} {s t : State} (hi : s.engine = none) (ho : o ≠ 0x004)
    (h : csrWrite o v s = .next t) : t.engine = none := by
  cases ha : aligned o with
  | false => rw [csrWrite_misaligned ha] at h; cases h; exact hi
  | true =>
    cases hr : csrAt o with
    | none => rw [csrWrite_unmapped ha hr] at h; cases h; exact hi
    | some r =>
      have hc : r ≠ .cmd := by rintro rfl; exact ho (eq_offset_of_csrAt ha hr)
      rw [csrWrite_mapped ha hr, writeRegister_store hc (.inr (idle_of_engine (s := acknowledge s) hi))] at h
      cases h
      simp [hi]

/-- Every transaction but a CMD write in IDLE leaves the engine as it was (R31, R47). -/
theorem transact_keeps_engine {x : Txn} {s t : State} (h : transact x s = .next t)
    (hx : s.busy = true ∨ ∀ c, x ≠ .csrWrite 0x004 c) : t.engine = s.engine := by
  cases x with
  | csrRead o =>
    obtain ⟨r, hr⟩ := csrRead_frame o s
    rw [transact, hr] at h
    cases h; rfl
  | csrWrite o v =>
    cases hb : s.busy with
    | true =>
      obtain ⟨t', ht', hframe⟩ := csrWrite_busy o v hb
      rw [transact, ht'] at h
      cases h
      rw [hframe]
    | false =>
      have hi := engine_of_idle hb
      have ho : o ≠ 0x004 := by
        rintro rfl
        exact hx.elim (fun hb' => Bool.false_ne_true (hb.symm.trans hb')) fun hx => hx v rfl
      exact (csrWrite_keeps_idle hi ho h).trans hi.symm
  | pmemRead wa => cases h; simp only [pmemRead]; split <;> rfl
  | pmemWrite wa v => cases h; simp only [pmemWrite]; split <;> rfl

/-- A turn of the engine changes BUSY only by the completion of its command, with DONE (R165). -/
theorem engineTurn_busy_change {s t : State} (h : engineTurn s = .next t) (hne : s.busy ≠ t.busy) :
    s.busy = true ∧ t.done = true := by
  cases he : s.engine with
  | none => rw [engineTurn_idle he] at h; cases h; exact absurd rfl hne
  | some j =>
    rw [engineTurn_busy he] at h
    obtain ⟨hi, -⟩ | ⟨j', -, -, rfl⟩ := exec_next h
    · simp [he] at hi
    · exact ⟨busy_of_engine he, complete_done _⟩

end Sys2Proof.Machine
end

section
/-! Proofs of the statements about the state and the CSR map (10_state.md). -/

namespace Sys2Proof.Machine

/-- Settles O57, event by event: every transaction but a CMD write in IDLE keeps the engine, a turn of the engine that
changes BUSY completes, and after a reset the engine is IDLE. -/
theorem busyChangesOnlyByLifecycle : Obligations.BusyChangesOnlyByLifecycle := by
  intro s t h hne
  cases hev : s.events with
  | nil =>
    rw [step_nil hev] at h
    obtain ⟨hb, hd⟩ := engineTurn_busy_change h hne
    exact .inr (.inl ⟨hb, hd, .inl rfl⟩)
  | cons e rest =>
    rw [step_cons hev] at h
    cases e with
    | host x =>
      left
      by_contra hno
      have hkeep : t.engine = s.engine := by
        refine transact_keeps_engine (s := { s with events := rest }) h ?_
        cases hb : s.busy with
        | true => exact .inl hb
        | false => exact .inr fun c hx => hno ⟨hb, c, rest, by rw [hx]⟩
      exact hne (by simp [hkeep])
    | engine =>
      obtain ⟨hb, hd⟩ := engineTurn_busy_change (s := { s with events := rest }) h hne
      exact .inr (.inl ⟨hb, hd, .inr ⟨rest, rfl⟩⟩)
    | reset =>
      cases h
      refine .inr (.inr ⟨?_, rest, rfl⟩)
      simpa [Option.isSome_iff_ne_none] using hne

/-- Settles O5: the CMD write issues the word, and issuing a word that decodes is `exec` of its command. -/
theorem stepRunsDecodedCommand : Obligations.StepRunsDecodedCommand := by
  intro s c i rest hi hev hd
  rw [step_cmdWrite hi hev, issueWord_ok hd]

/-- Settles O38: ID reads its constant, and a write to it stores nothing. -/
theorem idIsConstant : Obligations.IdIsConstant := by
  intro s v rest
  refine ⟨fun hev => step_csrRead_offset .id hev, fun hev => ?_⟩
  rw [step_csrWrite_store (r := .id) (by decide) (.inl rfl) hev]
  rfl

/-- Settles O39: each pair of the list is a register's offset with the value `readCsr` gives it. -/
theorem registersReadAsMapped : Obligations.RegistersReadAsMapped := by
  intro s rest o v hmem hev
  have hmap : (o, v) ∈ List.map (fun r : Csr => (r.offset, readCsr s r))
      [.cmd, .ctrl, .width, .height, .srcBase, .dstBase, .scrBase, .pkA, .pkR, .pkG, .pkB, .pkOut, .upIn,
        .upA, .upR, .upG, .upB] := hmem
  obtain ⟨r, -, hr⟩ := List.mem_map.1 hmap
  cases hr
  exact step_csrRead_offset r hev

/-- Settles O40: STATUS reads `statusWord`, whose parts stand at the bits R27 gives them. -/
theorem statusReadsItsFields : Obligations.StatusReadsItsFields := by
  intro s rest hev
  obtain ⟨hbusy, hdone, herr, hacc⟩ := statusWord_flags s
  refine ⟨statusWord s, step_csrRead_offset .status hev, hbusy, hdone, herr, hacc, ?_, ?_⟩
  · exact (extract_statusWord s (by decide) 4).trans BitVec.extractLsb'_append_eq_right
  · exact (extract_statusWord s (by decide) 24).trans BitVec.extractLsb'_append_eq_left

/-- Settles O41: STATUS is not gated, and `writeStatus` clears each flag by its bit. -/
theorem statusWriteOneClears : Obligations.StatusWriteOneClears := by
  intro s v rest hev
  rw [step_csrWrite_store (r := .status) (by decide) (.inl rfl) hev]
  have hclear (b f : Bool) : (f && !b) = if b then false else f := by cases b <;> simp
  simp only [storeCsr, writeStatus, acknowledge, hclear]

/-- Settles O42: CTRL is not gated and stores bit 0. -/
theorem ctrlWriteSetsInterruptEnable : Obligations.CtrlWriteSetsInterruptEnable := by
  intro s v rest hev
  rw [step_csrWrite_store (r := .ctrl) (by decide) (.inl rfl) hev]
  rfl

/-- Settles O43: in IDLE the gate is open, so each write is the register's store; a base keeps its low ADDR_W bits. -/
theorem operandRegistersStoreTheirFields : Obligations.OperandRegistersStoreTheirFields := by
  intro s v o rest hi hev t
  have store (r : Csr) (hc : r ≠ .cmd) (ho : o = r.offset) : step s = .next (storeCsr t v r) := by
    rw [ho] at hev
    exact step_csrWrite_store hc (.inr (idle_of_engine hi)) hev
  have base : (baseValue t v).toNat = v.toNat % 2 ^ s.addrW.val := baseValue_toNat t v
  rw [← BitVec.setWidth_eq_extractLsb' (by decide)]
  exact ⟨store .width (by decide), store .height (by decide),
    fun ho => ⟨_, store .srcBase (by decide) ho, base⟩, fun ho => ⟨_, store .dstBase (by decide) ho, base⟩,
    fun ho => ⟨_, store .scrBase (by decide) ho, base⟩, store .pkA (by decide), store .pkR (by decide),
    store .pkG (by decide), store .pkB (by decide), store .upIn (by decide)⟩

/-- Settles O44: the listed offsets are the gated registers', which refuse a write in BUSY; a read only answers. -/
theorem busyGateOnCsrPort : Obligations.BusyGateOnCsrPort := by
  intro s o v rest
  constructor
  · intro hb hev hmem
    have hmap : o ∈ (csrMap.filter Csr.gated).map Csr.offset := hmem
    obtain ⟨r, hr, rfl⟩ := List.mem_map.1 hmap
    exact step_csrWrite_refused (List.mem_filter.1 hr).2 hb hev
  · intro hev
    obtain ⟨r, hr⟩ := csrRead_frame o { s with events := rest }
    rw [step_cons hev]
    exact ⟨r, congrArg Host.Outcome.next hr⟩

/-- Settles O45: no register stands at or above 0x04C, and a read-only register stores nothing. -/
theorem unmappedAndReadOnlyOffsets : Obligations.UnmappedAndReadOnlyOffsets := by
  intro s o v rest ho
  have ha := (aligned_iff o).2 ho
  refine ⟨fun hhi hev => ?_, fun hread hev => ?_⟩
  · rw [step_cons hev]
    exact congrArg Host.Outcome.next (csrRead_unmapped ha (csrAt_unmapped hhi) _)
  · obtain hhi | hmem := hread
    · rw [step_cons hev]
      exact csrWrite_unmapped ha (csrAt_unmapped hhi) v _
    · have hmap : o ∈ readOnlyCsrs.map Csr.offset := hmem
      obtain ⟨r, hr, rfl⟩ := List.mem_map.1 hmap
      obtain ⟨hcmd, hgate⟩ := readOnly_ungated hr
      rw [step_csrWrite_store hcmd (.inl hgate) hev, storeCsr_readOnly hr]
      rfl

end Sys2Proof.Machine
end

section
/-! Laws of the two ports (20_memory.md R47, R49): what a misaligned offset is, and what the PMEM port does on each side of the
busy gate. -/

namespace Sys2Proof.Machine

theorem misaligned_of_mod_ne {o : BitVec 12} (h : o.toNat % 4 ≠ 0) : aligned o = false :=
  Bool.eq_false_iff.2 (mt (aligned_iff o).1 h)

/-- An address of ADDR_W bits is its own PMEM index (R40). -/
theorem pmemIndex_of_lt {s : State} {wa : Word} (h : wa.toNat < 2 ^ s.addrW.val) : pmemIndex s wa = wa.toNat :=
  Nat.mod_eq_of_lt h

theorem pmemRead_busy {s : State} (hb : s.busy = true) (wa : Word) : pmemRead wa s = answer 0 (refuseAccess s) :=
  if_pos hb

theorem pmemRead_idle {s : State} (hb : s.busy = false) (wa : Word) :
    pmemRead wa s = answer (readWord s.pmem (pmemIndex s wa)) s :=
  if_neg (Bool.eq_false_iff.1 hb)

theorem pmemWrite_busy {s : State} (hb : s.busy = true) (wa v : Word) :
    pmemWrite wa v s = acknowledge (refuseAccess s) :=
  if_pos hb

theorem pmemWrite_idle {s : State} (hb : s.busy = false) (wa v : Word) :
    pmemWrite wa v s = acknowledge { s with pmem := writeWord s.pmem (pmemIndex s wa) v } :=
  if_neg (Bool.eq_false_iff.1 hb)

end Sys2Proof.Machine
end

section
/-! The frame of a command (20_memory.md R55): what `exec` can change, which bytes of PMEM its operation can write, and
where it stops. -/

namespace Sys2Proof.Machine

/-- In BUSY, with a latched buffer past PMEM, `exec` stops (log entry 11). -/
theorem exec_fault {i : Instr} {s : State} {j : Latched} (h : s.engine = some j)
    (hr : inRange s.addrW.words i j = false) : exec i s = .fault .pmemAddress := by
  rw [exec_eq_runCommand, runCommand, h]
  simp only [hr, Bool.false_eq_true, if_false]

/-- Issue changes the engine and STATUS only (R162, R163). -/
theorem issue_frame (i : Instr) (s : State) :
    issue i s = { s with
      done := (issue i s).done
      err := (issue i s).err
      ecode := (issue i s).ecode
      engine := (issue i s).engine } := by
  obtain ⟨e, -, he⟩ | ⟨-, he⟩ := issue_cases i s <;> rw [he] <;> rfl

/-- All that `exec` can change: the engine, STATUS, pixel memory, the result registers and the counter of draws (R55). -/
theorem exec_frame {i : Instr} {s t : State} (h : exec i s = .next t) :
    t = { s with
      done := t.done
      err := t.err
      ecode := t.ecode
      engine := t.engine
      pmem := t.pmem
      pkOut := t.pkOut
      upA := t.upA
      upR := t.upR
      upG := t.upG
      upB := t.upB
      draws := t.draws } := by
  obtain ⟨-, rfl⟩ | ⟨j, -, -, rfl⟩ := exec_next h
  · rw [issue_frame]
  · rw [effectOf_frame]; rfl

/-- The operation of a command writes no byte outside DST and, for RBLUR, SCR (R55). -/
theorem effectOf_pmem_outside {i : Instr} {j : Latched} (s : State) {a : Nat}
    (hd : isImageCommand i = true → ¬ j.dstImage.hasByte a) (hs : (∃ p, i = .rblur p) → ¬ j.scrImage.hasByte a) :
    readByte (effectOf i j s).pmem a = readByte s.pmem a := by
  cases hi : isImageCommand i with
  | false => rw [effectOf_pmem_of_no_image i j s hi]
  | true =>
    refine effectOf_keeps (P := fun m => readByte m a = readByte s.pmem a) i j s ?_ ?_ rfl
    · intro x y v m hx hy hm
      rw [setPix_outside _ v m (ne_addr_of_not_hasByte _ (hd hi) hx hy), hm]
    · intro hrb k hk v m hm
      have hout := (not_hasByte_iff _ a).1 (hs hrb)
      rw [readByte_writeWord_other m v (by omega), hm]

/-- A command writes no byte outside DST and, for RBLUR, SCR; none when it is issued (R55). -/
theorem exec_pmem_outside {i : Instr} {s t : State} (h : exec i s = .next t) {a : Nat}
    (ha : ∀ j, s.engine = some j → (isImageCommand i = true → ¬ j.dstImage.hasByte a) ∧
      ((∃ p, i = .rblur p) → ¬ j.scrImage.hasByte a)) : readByte t.pmem a = readByte s.pmem a := by
  obtain ⟨-, rfl⟩ | ⟨j, hj, -, rfl⟩ := exec_next h
  · rw [issue_frame]
  · exact effectOf_pmem_outside s (ha j hj).1 (ha j hj).2

/-- Buffers that do not overlap have no byte in common. -/
theorem not_hasByte_of_not_overlaps {i k : Image} (h : i.overlaps k = false) {a : Nat} (ha : i.hasByte a) :
    ¬ k.hasByte a := by
  intro hk
  simp only [Image.hasByte] at ha hk
  have hov : i.overlaps k = true := (overlaps_iff i k).2 (by omega)
  exact Bool.false_ne_true (h.symm.trans hov)

/-- A legal image command's SRC overlaps DST only where they are one buffer (R168). -/
theorem src_dst_not_overlaps {i : Instr} {j : Latched} (hi : isImageCommand i = true)
    (h : aliasingViolation i j = false) (hne : j.src ≠ j.dst) : j.srcImage.overlaps j.dstImage = false := by
  have of_partial (hp : partialOverlap j = false) : j.srcImage.overlaps j.dstImage = false := by
    simpa [partialOverlap, hne] using hp
  cases i with
  | pack => exact absurd hi Bool.false_ne_true
  | unpack => exact absurd hi Bool.false_ne_true
  | blur5 => exact h
  | blur3 => exact h
  | sobel gm bz => exact h
  | pixelate param => exact of_partial h
  | rblur param => exact of_partial (Bool.or_eq_false_iff.1 (Bool.or_eq_false_iff.1 h).1).1
  | rinvert param => exact of_partial h

/-- A legal RBLUR's SCR does not overlap its SRC (R168). -/
theorem rblur_src_scr_not_overlaps {p : Nat} {j : Latched} (h : aliasingViolation (.rblur p) j = false) :
    j.srcImage.overlaps j.scrImage = false := by
  rw [overlaps_comm]
  exact (Bool.or_eq_false_iff.1 (Bool.or_eq_false_iff.1 h).1).2

/-- A legal command writes no byte of a SRC that is another buffer than DST (R55, R168). -/
theorem exec_keeps_src {i : Instr} {s t : State} (h : exec i s = .next t) {j : Latched} (hj : s.engine = some j)
    (hi : isImageCommand i = true) (hal : aliasingViolation i j = false) (hne : j.src ≠ j.dst) {a : Nat}
    (ha : j.srcImage.hasByte a) : readByte t.pmem a = readByte s.pmem a := by
  refine exec_pmem_outside h fun j' hj' => ?_
  obtain rfl : j = j' := Option.some.inj (hj.symm.trans hj')
  refine ⟨fun _ => not_hasByte_of_not_overlaps (src_dst_not_overlaps hi hal hne) ha, ?_⟩
  rintro ⟨p, rfl⟩
  exact not_hasByte_of_not_overlaps (rblur_src_scr_not_overlaps hal) ha

/-- PACK, UNPACK and the issue of any command leave pixel memory (R55). -/
theorem exec_pmem {i : Instr} {s t : State} (h : exec i s = .next t)
    (hi : isImageCommand i = false ∨ s.engine = none) : t.pmem = s.pmem := by
  obtain ⟨-, rfl⟩ | ⟨j, hj, -, rfl⟩ := exec_next h
  · rw [issue_frame]
  · exact effectOf_pmem_of_no_image i j s (hi.resolve_right (by simp [hj]))

/-- Only the completion of PACK writes PK_OUT (R55). -/
theorem exec_pkOut {i : Instr} {s t : State} (h : exec i s = .next t) (hi : i ≠ .pack ∨ s.engine = none) :
    t.pkOut = s.pkOut := by
  obtain ⟨-, rfl⟩ | ⟨j, hj, -, rfl⟩ := exec_next h
  · rw [issue_frame]
  · exact effectOf_pkOut i j s (hi.resolve_right (by simp [hj]))

/-- Only the completion of UNPACK writes UP_A to UP_B (R55). -/
theorem exec_up {i : Instr} {s t : State} (h : exec i s = .next t) (hi : i ≠ .unpack ∨ s.engine = none) :
    t.upA = s.upA ∧ t.upR = s.upR ∧ t.upG = s.upG ∧ t.upB = s.upB := by
  obtain ⟨-, rfl⟩ | ⟨j, hj, -, rfl⟩ := exec_next h
  · rw [issue_frame]; exact ⟨rfl, rfl, rfl, rfl⟩
  · exact effectOf_up i j s (hi.resolve_right (by simp [hj]))

end Sys2Proof.Machine
end

section
/-! Proofs of the statements about memory (20_memory.md). -/

namespace Sys2Proof.Machine

/-- Settles O54: each clause is a frame lemma of `exec`, by its two answers, issue and completion. -/
theorem commandWritesOnlyItsBuffers : Obligations.CommandWritesOnlyItsBuffers := by
  intro i s t h
  have registers := exec_frame h
  refine ⟨fun a ha => exec_pmem_outside h ha, ?_, fun j hj hi hal hne a ha => exec_keeps_src h hj hi hal hne ha, ?_,
    exec_pkOut h, exec_up h⟩
  · rintro (rfl | rfl | hidle)
    · exact exec_pmem h (.inl rfl)
    · exact exec_pmem h (.inl rfl)
    · exact exec_pmem h (.inr hidle)
  · rw [registers]
    simp only [and_self]

/-- Settles O60: the laws of `writeWord`, and a byte is its lane of its word. -/
theorem wordWriteIsReadBack : Obligations.WordWriteIsReadBack := by
  intro m wa v
  refine ⟨readWord_writeWord_same m wa v, fun a ha => readByte_writeWord_other m v ha, writeWord_wf m wa v,
    fun k hk => ?_⟩
  have hword : (4 * wa + k) / 4 = wa := by omega
  have hlane : (4 * wa + k) % 4 = k := by omega
  rw [readByte_eq_lane, hword, hlane, lane]

/-- Settles O12: a buffer past PMEM puts the latched command out of range. -/
theorem latchedBufferPastMemoryFaults : Obligations.LatchedBufferPastMemoryFaults := by
  intro s i j hj hi hpast
  refine exec_fault hj (Bool.eq_false_iff.2 fun hr => ?_)
  obtain ⟨hsrc, hdst, hscr⟩ := inRange_image hi hr
  obtain hp | hp | ⟨hrb, hp⟩ := hpast
  · exact absurd hsrc (Nat.not_le.2 hp)
  · exact absurd hdst (Nat.not_le.2 hp)
  · exact absurd (hscr hrb) (Nat.not_le.2 hp)

/-- Settles O46: the port answers a misaligned access with an error and looks no further. -/
theorem misalignedCsrAccessHasNoEffect : Obligations.MisalignedCsrAccessHasNoEffect := by
  intro s o v rest ho
  have ha := misaligned_of_mod_ne ho
  refine ⟨fun hev => ?_, fun hev => ?_⟩ <;> rw [step_cons hev]
  · exact congrArg Host.Outcome.next (csrRead_misaligned ha _)
  · exact csrWrite_misaligned ha v _

/-- Settles O47, on each side of the busy gate; in IDLE the word written is the one at `wa` itself. -/
theorem pmemPortObeysBusyGate : Obligations.PmemPortObeysBusyGate := by
  intro s wa v rest hwa
  have hidx : pmemIndex { s with events := rest } wa = wa.toNat := pmemIndex_of_lt hwa
  refine ⟨fun hev => ?_, fun hev => ⟨fun hb => ?_, fun hb => ?_⟩⟩ <;> rw [step_cons hev]
  · refine congrArg Host.Outcome.next ?_
    cases hb : s.busy with
    | true => exact pmemRead_busy (s := { s with events := rest }) hb wa
    | false => rw [pmemRead_idle (s := { s with events := rest }) hb, hidx]; rfl
  · exact congrArg Host.Outcome.next (pmemWrite_busy (s := { s with events := rest }) hb wa v)
  · refine ⟨writeWord s.pmem wa.toNat v, congrArg Host.Outcome.next ?_, readWord_writeWord_same _ _ v,
      fun a ha => readByte_writeWord_other _ v ha⟩
    rw [pmemWrite_idle (s := { s with events := rest }) hb, hidx]
    rfl

end Sys2Proof.Machine
end

section
/-! Laws of the decoder and the encoder (30_encoding.md R102, R107): on a listed opcode `decode` is one question, whether the
fields are legal, and one answer, the command that the opcode names. -/

namespace Sys2Proof

/-- No bit that is reserved for the opcode is set, and SOBEL's GM is not 3 (R107 case 2). -/
def fieldsLegal (c : Word) : Bool :=
  rsvClear c && (decide (6 ≤ (opField c).toNat) || paramClear c) &&
    if (opField c).toNat = 5 then gmField c != 3 else modeClear c

/-- The command that c[3:0] names, with the fields of c (R107 case 3). It says nothing of a word that cases 1 and 2 reject. -/
def namedCommand (c : Word) : Instr :=
  match (opField c).toNat with
  | 0x1 => .pack
  | 0x2 => .unpack
  | 0x3 => .blur5
  | 0x4 => .blur3
  | 0x5 => .sobel ((GrayMode.ofField (gmField c)).getD .lumt) (BorderMode.ofField (bzField c))
  | 0x6 => .pixelate (paramField c).toNat
  | 0x7 => .rblur (paramField c).toNat
  | _ => .rinvert (paramField c).toNat

/-- Only GM = 3 names no grayscale mode (R104). -/
theorem GrayMode.ofField_isSome (gm : BitVec 2) : (GrayMode.ofField gm).isSome = (gm != 3) := by
  revert gm; decide

theorem decodePlain_eq {c : Word} (h : (opField c).toNat ≤ 4) (i : Instr) :
    decodePlain c i = if fieldsLegal c then .ok i else .error .rsvd := by
  have hparam : ¬ 6 ≤ (opField c).toNat := by omega
  have hsobel : (opField c).toNat ≠ 5 := by omega
  simp only [decodePlain, fieldsLegal, hparam, hsobel, decide_false, Bool.false_or, if_false]

theorem decodeSobel_eq {c : Word} (h : (opField c).toNat = 5) :
    decodeSobel c = if fieldsLegal c then
      .ok (.sobel ((GrayMode.ofField (gmField c)).getD .lumt) (BorderMode.ofField (bzField c))) else .error .rsvd := by
  simp only [decodeSobel, fieldsLegal, h, ← GrayMode.ofField_isSome]
  cases GrayMode.ofField (gmField c) <;> simp

theorem decodeParam_eq {c : Word} (h : 6 ≤ (opField c).toNat) (mk : Nat → Instr) :
    decodeParam c mk = if fieldsLegal c then .ok (mk (paramField c).toNat) else .error .rsvd := by
  have hsobel : (opField c).toNat ≠ 5 := by omega
  simp only [decodeParam, fieldsLegal, h, hsobel, decide_true, Bool.true_or, Bool.and_true, if_false]

/-- A reserved opcode is rejected whatever the fields are (R107 case 1). -/
theorem decode_reserved {c : Word} (h : (opField c).toNat = 0 ∨ 9 ≤ (opField c).toNat) : decode c = .error .opc := by
  unfold decode
  split
  case h_9 => rfl
  all_goals omega

/-- On a listed opcode the fields decide between rejection and the command (R107 cases 2 and 3). -/
theorem decode_listed {c : Word} (h1 : 1 ≤ (opField c).toNat) (h8 : (opField c).toNat ≤ 8) :
    decode c = if fieldsLegal c then .ok (namedCommand c) else .error .rsvd := by
  obtain h4 | h5 | h6 : (opField c).toNat ≤ 4 ∨ (opField c).toNat = 5 ∨ 6 ≤ (opField c).toNat := by omega
  · simp only [decode, decodePlain_eq h4, namedCommand]
    interval_cases (opField c).toNat <;> rfl
  · simp only [decode, decodeSobel_eq h5, namedCommand, h5]
  · simp only [decode, decodeParam_eq h6, namedCommand]
    interval_cases (opField c).toNat <;> rfl

/-- The words that decode, and what each decodes to (R107 case 3). -/
theorem decode_ok_iff {c : Word} {i : Instr} : decode c = .ok i ↔
    1 ≤ (opField c).toNat ∧ (opField c).toNat ≤ 8 ∧ fieldsLegal c = true ∧ namedCommand c = i := by
  by_cases hop : 1 ≤ (opField c).toNat ∧ (opField c).toNat ≤ 8
  · obtain ⟨h1, h8⟩ := hop
    rw [decode_listed h1 h8]
    cases fieldsLegal c <;> simp [h1, h8]
  · rw [decode_reserved (by omega)]
    exact iff_of_false (by simp) fun ⟨h1, h8, _⟩ => hop ⟨h1, h8⟩

/-- R100 and R107 case 2, on the fields a command word is built from. -/
theorem fieldsLegal_commandWord (param : BitVec 8) (bz : BitVec 1) (gm : BitVec 2) (op : BitVec 4) :
    fieldsLegal (commandWord param bz gm op) =
      ((decide (6 ≤ op.toNat) || param == 0) && if op.toNat = 5 then gm != 3 else bz == 0 && gm == 0) := by
  simp only [fieldsLegal, rsvClear_commandWord, paramClear, modeClear, opField_commandWord, gmField_commandWord,
    bzField_commandWord, paramField_commandWord, Bool.true_and]

theorem encodedWord (i : Instr) : Laws.EncodedWord.Statement i := by
  cases i with
  | pack => exact Laws.EncodedWord.pack
  | unpack => exact Laws.EncodedWord.unpack
  | blur5 => exact Laws.EncodedWord.blur5
  | blur3 => exact Laws.EncodedWord.blur3
  | sobel gm bz => exact Laws.EncodedWord.sobel gm bz
  | pixelate param => exact Laws.EncodedWord.pixelate param
  | rblur param => exact Laws.EncodedWord.rblur param
  | rinvert param => exact Laws.EncodedWord.rinvert param

theorem fieldsLegal_encode (i : Instr) : fieldsLegal (encode i) = true := by
  cases i <;> rw [encode, fieldsLegal_commandWord]
  case sobel gm bz => cases gm <;> rfl
  all_goals rfl

/-- A PARAM value that fits its field is kept by it (R103). -/
theorem toNat_ofNat_of_paramFits {param : Nat} (h : paramFits param = true) : (BitVec.ofNat 8 param).toNat = param := by
  have hle : param ≤ 255 := of_decide_eq_true h
  exact Nat.mod_eq_of_lt (by omega)

theorem paramFits_toNat (p : BitVec 8) : paramFits p.toNat = true :=
  decide_eq_true (by omega)

theorem namedCommand_encode {i : Instr} (hi : i.wellFormed = true) : namedCommand (encode i) = i := by
  cases i <;> simp only [encode, namedCommand, opField_commandWord]
  case sobel gm bz => simp [gmField_commandWord, bzField_commandWord]
  case pixelate param | rblur param | rinvert param =>
    simp [paramField_commandWord, toNat_ofNat_of_paramFits hi]
  all_goals rfl

theorem wellFormed_namedCommand (c : Word) : (namedCommand c).wellFormed = true := by
  unfold namedCommand
  split
  case h_6 | h_7 | h_8 => exact paramFits_toNat _
  all_goals rfl

/-- The command that each listed opcode names (R102). -/
theorem namedCommand_listed (c : Word) :
    ((opField c).toNat = 1 → namedCommand c = .pack) ∧ ((opField c).toNat = 2 → namedCommand c = .unpack) ∧
    ((opField c).toNat = 3 → namedCommand c = .blur5) ∧ ((opField c).toNat = 4 → namedCommand c = .blur3) ∧
    ((opField c).toNat = 5 → namedCommand c =
      .sobel ((GrayMode.ofField (gmField c)).getD .lumt) (BorderMode.ofField (bzField c))) ∧
    ((opField c).toNat = 6 → namedCommand c = .pixelate (paramField c).toNat) ∧
    ((opField c).toNat = 7 → namedCommand c = .rblur (paramField c).toNat) ∧
    ((opField c).toNat = 8 → namedCommand c = .rinvert (paramField c).toNat) := by
  refine ⟨?_, ?_, ?_, ?_, ?_, ?_, ?_, ?_⟩ <;> intro h <;> simp only [namedCommand, h]

/-- Legal fields, one by one (R107 case 2). -/
theorem fieldsLegal_iff (c : Word) : fieldsLegal c = true ↔
    rsvClear c = true ∧ ((opField c).toNat ≤ 5 → paramClear c = true) ∧
      ((opField c).toNat ≠ 5 → modeClear c = true) ∧ ((opField c).toNat = 5 → gmField c ≠ 3) := by
  have hop : ¬ 6 ≤ (opField c).toNat ↔ (opField c).toNat ≤ 5 := by omega
  by_cases h5 : (opField c).toNat = 5
  · simp [fieldsLegal, h5, and_assoc]
  · simp [fieldsLegal, h5, and_assoc, ← hop, imp_iff_not_or]

theorem GrayMode.field_getD_ofField {gm : BitVec 2} (h : gm ≠ 3) : ((GrayMode.ofField gm).getD .lumt).field = gm := by
  revert gm; decide

/-- The grayscale mode of a GM field by its number, GM = 3 aside (R104). -/
theorem GrayMode.ofField_getD (gm : BitVec 2) :
    (GrayMode.ofField gm).getD .lumt = if gm.toNat = 0 then .lum else if gm.toNat = 1 then .mean else .lumt := by
  revert gm; decide

theorem BorderMode.ofField_eq (bz : BitVec 1) : BorderMode.ofField bz = if bz.toNat = 0 then .copy else .zero := by
  revert bz; decide

/-- A legal word has no bits but the fields of the command it names (R100). -/
theorem encode_namedCommand {c : Word} (h1 : 1 ≤ (opField c).toNat) (h8 : (opField c).toNat ≤ 8)
    (hf : fieldsLegal c = true) : encode (namedCommand c) = c := by
  obtain ⟨hclear, hparam, hmode, hgm⟩ := (fieldsLegal_iff c).1 hf
  simp only [paramClear, modeClear, beq_iff_eq, Bool.and_eq_true] at hparam hmode
  have toNat_field {w : Nat} (x : BitVec w) : x = BitVec.ofNat w x.toNat := by simp
  refine Eq.trans ?_ (word_eq_commandWord c hclear).symm
  obtain h4 | h5 | h6 : (opField c).toNat ≤ 4 ∨ (opField c).toNat = 5 ∨ 6 ≤ (opField c).toNat := by omega
  · obtain ⟨hbz, hgm⟩ := hmode (by omega)
    rw [hparam (by omega), hbz, hgm, toNat_field (opField c), namedCommand]
    interval_cases (opField c).toNat <;> rfl
  · simp only [namedCommand, h5, encode]
    rw [hparam h5.le, GrayMode.field_getD_ofField (hgm h5), BorderMode.field_ofField, toNat_field (opField c), h5]
    rfl
  · obtain ⟨hbz, hgm⟩ := hmode (by omega)
    rw [hbz, hgm, toNat_field (opField c), toNat_field (paramField c), namedCommand]
    interval_cases (opField c).toNat <;> rfl

/-- c[6:4] is BZ over GM (R100), so it is 0 when both are. -/
theorem modeClear_iff (c : Word) : modeClear c = true ↔ c.extractLsb' 4 3 = 0 := by
  have hsplit : c.extractLsb' 4 3 = bzField c ++ gmField c := by
    rw [bzField, gmField, BitVec.extractLsb'_append_extractLsb'_eq_extractLsb' (by decide)]
  rw [hsplit, modeClear, Bool.and_eq_true, beq_iff_eq, beq_iff_eq]
  generalize bzField c = bz, gmField c = gm
  revert bz gm; decide

/-- The words that R107 case 2 rejects, by their bits. -/
theorem fieldsLegal_eq_false_iff (c : Word) : fieldsLegal c = false ↔
    rsv1Field c ≠ 0 ∨ rsv0Field c ≠ 0 ∨ ((opField c).toNat ≤ 5 ∧ (paramField c).toNat ≠ 0) ∨
      ((opField c).toNat ≠ 5 ∧ c.extractLsb' 4 3 ≠ 0) ∨ ((opField c).toNat = 5 ∧ (gmField c).toNat = 3) := by
  have hrsv : rsvClear c = true ↔ rsv1Field c = 0 ∧ rsv0Field c = 0 := by
    rw [rsvClear, Bool.and_eq_true, beq_iff_eq, beq_iff_eq]
  have hparam : paramClear c = true ↔ (paramField c).toNat = 0 := by
    rw [paramClear, beq_iff_eq, ← BitVec.toNat_inj]; rfl
  have hgm : gmField c = 3 ↔ (gmField c).toNat = 3 := by rw [← BitVec.toNat_inj]; rfl
  rw [← Bool.not_eq_true, fieldsLegal_iff, hrsv, hparam, modeClear_iff, ne_eq (gmField c), hgm]
  simp only [not_and_or, Classical.not_imp, not_not, or_assoc, ne_eq]

end Sys2Proof
end

section
/-! Proofs of the statements about the command encoding (30_encoding.md). -/

namespace Sys2Proof

/-- Settles O1: the word of a command has a listed opcode and legal fields, and the command it names is that command. -/
theorem encodedCommandDecodesBack : Obligations.EncodedCommandDecodesBack := by
  intro i hi
  obtain ⟨-, h1, h8⟩ := encodedWord i
  exact decode_ok_iff.2 ⟨h1, h8, fieldsLegal_encode i, namedCommand_encode hi⟩

/-- Settles O2: the command is the one its word names, and a legal word has no other bits. -/
theorem decodedWordEncodesBack : Obligations.DecodedWordEncodesBack := by
  intro c i h
  obtain ⟨h1, h8, hf, rfl⟩ := decode_ok_iff.1 h
  exact ⟨encode_namedCommand h1 h8 hf, wellFormed_namedCommand c⟩

/-- Settles O3: a listed opcode leaves the question of legal fields, and a legal word is the command it names. -/
theorem decodeFollowsThreeCases : Obligations.DecodeFollowsThreeCases := by
  intro c op gm bz param illegal
  have hfields : fieldsLegal c = false ↔ illegal := fieldsLegal_eq_false_iff c
  refine ⟨decode_reserved, fun ⟨h1, h8, hill⟩ => ?_, fun ⟨h1, h8, hleg⟩ => ?_⟩
  · rw [decode_listed h1 h8, hfields.2 hill]; rfl
  · have hf : fieldsLegal c = true := Bool.eq_true_of_not_eq_false (mt hfields.1 hleg)
    have accept {i : Instr} (hi : namedCommand c = i) : decode c = .ok i := decode_ok_iff.2 ⟨h1, h8, hf, hi⟩
    obtain ⟨pack, unpack, blur5, blur3, sobel, pixelate, rblur, rinvert⟩ := namedCommand_listed c
    rw [GrayMode.ofField_getD, BorderMode.ofField_eq] at sobel
    exact ⟨fun h => accept (pack h), fun h => accept (unpack h), fun h => accept (blur5 h), fun h => accept (blur3 h),
      fun h => accept (sobel h), fun h => accept (pixelate h), fun h => accept (rblur h), fun h => accept (rinvert h)⟩

/-- Settles O4: an accepted example is the word of its command, and a rejected one has a reserved bit or GM = 3 set, or a
reserved opcode. -/
theorem encodingExamplesDecode : Obligations.EncodingExamplesDecode :=
  ⟨encodedCommandDecodesBack (.sobel .mean .zero) rfl, encodedCommandDecodesBack (.pixelate 4) rfl,
    encodedCommandDecodesBack (.rblur 0) rfl, encodedCommandDecodesBack (.rinvert 8) rfl,
    encodedCommandDecodesBack (.sobel .lumt .copy) rfl, decode_listed (by decide) (by decide),
    decode_listed (by decide) (by decide), decode_reserved (by decide)⟩

end Sys2Proof
end

section
/-! Laws of packed colour (40_packed_color.md R150 to R155): the channels of a word by shift, mask and or; what PACK and UNPACK
do when the engine runs them; and what a host's run of either leaves. -/

namespace Sys2Proof.Machine

/-! The channels of a word -/

theorem argb_eq_shift_or (a r g b : Byte) : argb a r g b =
    (a.setWidth 32 <<< 24 ||| r.setWidth 32 <<< 16 ||| g.setWidth 32 <<< 8 ||| b.setWidth 32) :=
  (BitVec.setWidth_eq _).symm.trans BitVec.setWidth_append_append_append_eq_shiftLeft_setWidth_or

theorem argb_channels (p : Word) : argb (chA p) (chR p) (chG p) (chB p) = p := lanes_append p

/-- A value in 0..255 is its low byte, zero-extended. -/
theorem setWidth_lowByte {v : Word} (h : v.toNat ≤ 255) : (v.setWidth 8).setWidth 32 = v :=
  BitVec.setWidth_setWidth_eq_self (by bv_omega)

/-- The byte of a word from bit `k` on, zero-extended, is a shift and a mask (R150). -/
theorem setWidth_extract_byte (p : Word) (k : Nat) : (p.extractLsb' k 8).setWidth 32 = (p >>> k) &&& 0xFF := by
  rw [← BitVec.setWidth_ushiftRight_eq_extractLsb, BitVec.setWidth_eq_append (by decide)]
  exact (BitVec.and_setWidth_allOnes 24 8 (p >>> k)).symm

/-! The operations -/

theorem channelsInRange_iff {j : Latched} : channelsInRange j = true ↔
    j.pkA.toNat ≤ 255 ∧ j.pkR.toNat ≤ 255 ∧ j.pkG.toNat ≤ 255 ∧ j.pkB.toNat ≤ 255 := decide_eq_true_iff

theorem packEffect_inRange {j : Latched} (h : channelsInRange j = true) (s : State) : packEffect j s =
    { s with pkOut := argb (j.pkA.setWidth 8) (j.pkR.setWidth 8) (j.pkG.setWidth 8) (j.pkB.setWidth 8) } :=
  if_pos h

theorem packEffect_outOfRange {j : Latched} (h : channelsInRange j = false) (s : State) : packEffect j s =
    { s with pkOut := Config.freeWord s.draws, draws := s.draws + 1 } :=
  if_neg (Bool.eq_false_iff.1 h)

/-! PACK and UNPACK use no buffer, so no check on buffers stops them (R167, R168). -/

section
variable {i : Instr} (hi : isImageCommand i = false)
include hi

theorem inRange_of_no_image (words : Nat) (j : Latched) : inRange words i j = true := by
  cases i with
  | pack | unpack => rfl
  | _ => cases hi

theorem issue_of_no_image (s : State) : issue i s = accept i s := by
  cases i with
  | pack | unpack => rfl
  | _ => cases hi

theorem decode_encode_of_no_image : decode (encode i) = .ok i := by
  cases i with
  | pack | unpack => exact encodedCommandDecodesBack _ rfl
  | _ => cases hi

theorem exec_idle_of_no_image {s : State} (h : s.engine = none) : exec i s = .next (accept i s) := by
  rw [exec_idle i h, issue_of_no_image hi]

theorem exec_busy_of_no_image {s : State} {j : Latched} (h : s.engine = some j) :
    exec i s = .next (complete (effectOf i j s)) :=
  exec_busy i h (inRange_of_no_image hi _ j)

/-- A CMD write in IDLE of the command's word is accepted (R160, R162). -/
theorem step_cmdWrite_of_no_image {s : State} (hidle : s.engine = none) {rest : List Event}
    (hev : s.events = .host (.csrWrite 0x004 (encode i)) :: rest) :
    step s = .next (accept i { s with events := rest, cmd := encode i, response := some ⟨false, none⟩ }) := by
  rw [step_cmdWrite hidle hev, issueWord_ok (decode_encode_of_no_image hi)]
  exact exec_idle_of_no_image hi hidle

/-- A CMD write in IDLE and the engine's turn after it run the command on the operands that the registers hold
(R162, R164, R165). -/
theorem runSteps_cmdWrite_engine {s : State} (hidle : s.engine = none) (rest : List Event) (n : Nat) :
    runSteps (n + 2) { s with events := .host (.csrWrite 0x004 (encode i)) :: .engine :: rest } =
      runSteps n (complete (effectOf i (latch i s)
        (accept i { s with events := rest, cmd := encode i, response := some ⟨false, none⟩ }))) := by
  have haccept := step_cmdWrite_of_no_image hi
    (s := { s with events := .host (.csrWrite 0x004 (encode i)) :: .engine :: rest }) hidle rfl
  rw [runSteps_succ haccept]
  refine runSteps_succ ?_ n
  rw [step_cons rfl, handle, engineTurn_busy (j := latch i s) rfl]
  exact exec_busy_of_no_image hi rfl

end

/-! A host's run of each command -/

/-- PACK of channels in range, then a read of PK_OUT, answers the packed channels (R153, R155). -/
theorem runSteps_pack_read {s : State} (hidle : s.engine = none) (h : channelsInRange (latch .pack s) = true) :
    let packed := argb (s.pkA.setWidth 8) (s.pkR.setWidth 8) (s.pkG.setWidth 8) (s.pkB.setWidth 8)
    runSteps 3 { s with events := [.host (.csrWrite 0x004 0x1), .engine, .host (.csrRead 0x034)] } =
      .next { s with
        events := []
        cmd := 0x1
        pkOut := packed
        engine := none
        done := true
        response := some ⟨false, some packed⟩ } := by
  intro packed
  refine (runSteps_cmdWrite_engine (i := .pack) rfl hidle _ 1).trans ?_
  rw [effectOf, packEffect_inRange h]
  exact runSteps_succ (step_csrRead_offset .pkOut rfl) 0

/-- A write of UP_IN, then UNPACK, leaves the channels of the word written (R154, R155). -/
theorem runSteps_write_unpack {s : State} (hidle : s.engine = none) (v : Word) :
    runSteps 3 { s with events := [.host (.csrWrite 0x038 v), .host (.csrWrite 0x004 0x2), .engine] } =
      .next { s with
        events := []
        cmd := 0x2
        upIn := v
        upA := chA v
        upR := chR v
        upG := chG v
        upB := chB v
        engine := none
        done := true
        response := some ⟨false, none⟩ } := by
  have hstore := step_csrWrite_store (r := .upIn) (v := v) (by decide) (.inr (idle_of_engine hidle))
    (s := { s with events := [.host (.csrWrite 0x038 v), .host (.csrWrite 0x004 0x2), .engine] }) rfl
  rw [runSteps_succ hstore]
  exact runSteps_cmdWrite_engine (i := .unpack) rfl
    (s := { s with upIn := v, response := some ⟨false, none⟩ }) hidle [] 0

end Sys2Proof.Machine
end

section
/-! Proofs of the statements about packed colour (40_packed_color.md). -/

namespace Sys2Proof.Machine

/-- Settles O13: `argb` puts its channels side by side, so each comes back and nothing else is there. -/
theorem packedColorRoundTrips : Obligations.PackedColorRoundTrips :=
  ⟨argb_eq_shift_or,
    fun a r g b => ⟨chA_argb a r g b, chR_argb a r g b, chG_argb a r g b, chB_argb a r g b⟩,
    argb_channels⟩

/-- Settles O14: each channel is its own low byte, so `argb` of the low bytes is the shift-and-or of the channels. -/
theorem packWritesPackedColor : Obligations.PackWritesPackedColor := by
  intro s j hj hA hR hG hB
  rw [exec_busy_of_no_image rfl hj, effectOf, packEffect_inRange (channelsInRange_iff.2 ⟨hA, hR, hG, hB⟩),
    argb_eq_shift_or, setWidth_lowByte hA, setWidth_lowByte hR, setWidth_lowByte hG, setWidth_lowByte hB]
  rfl

/-- Settles O15: out of range, PACK draws its output and completes as ever. -/
theorem packOutOfRangeCompletes : Obligations.PackOutOfRangeCompletes := by
  intro s j hj hout
  have hrange : channelsInRange j = false := by
    rw [← Bool.not_eq_true, channelsInRange_iff]
    omega
  rw [exec_busy_of_no_image rfl hj, effectOf, packEffect_outOfRange hrange]
  exact ⟨_, _, rfl⟩

/-- Settles O16: a read of an output zero-extends one byte of UP_IN, which is a shift and a mask. -/
theorem unpackExtractsChannels : Obligations.UnpackExtractsChannels := by
  intro s j hj
  refine ⟨complete (unpackEffect j s), exec_busy_of_no_image rfl hj, rfl, setWidth_extract_byte _ 24,
    setWidth_extract_byte _ 16, setWidth_extract_byte _ 8, ?_⟩
  exact (setWidth_extract_byte j.upIn 0).trans (by rw [BitVec.ushiftRight_zero])

/-- Settles O17: UNPACK takes from the packed word the low byte of each channel, which is the whole channel. -/
theorem packThenUnpackReturnsChannels : Obligations.PackThenUnpackReturnsChannels := by
  intro s hidle hA hR hG hB
  have hrange : channelsInRange (latch .pack s) = true := channelsInRange_iff.2 ⟨hA, hR, hG, hB⟩
  refine ⟨_, _, runSteps_pack_read hidle hrange, rfl, runSteps_write_unpack rfl _, ?_⟩
  simp only [readCsr, chA_argb, chR_argb, chG_argb, chB_argb, setWidth_lowByte hA, setWidth_lowByte hR,
    setWidth_lowByte hG, setWidth_lowByte hB, and_self]

end Sys2Proof.Machine
end

section
/-! Every event of the total order answers a next state and keeps the invariant (41_filter_contract.md R161 to R166,
60_exceptions.md R303). -/

namespace Sys2Proof.Machine

/-! The life of a command -/

/-- In IDLE the invariant speaks of no command. -/
theorem latched_ok_of_idle {s : State} (hi : s.engine = none) : ∀ j, s.engine = some j → LatchedOk s j := by
  simp [hi]

theorem errorNumber_range (e : ErrCode) : (errorNumber e).toNat ≤ 4 ∧ errorNumber e ≠ 0 := by
  cases e <;> decide

/-- Rejection in IDLE sets ERR and a code 1 to 4 together (R163, R301). -/
theorem inv_reject {s : State} (h : Inv s) (hi : s.engine = none) (e : ErrCode) : Inv (reject e s) :=
  { h with
    ecode_legal := (errorNumber_range e).1
    err_iff_ecode := iff_of_true rfl (errorNumber_range e).2
    latched_ok := latched_ok_of_idle hi }

/-- Acceptance latches the operand registers of a command that CMD holds and that passed its checks (R161, R162). -/
theorem inv_accept {s : State} (h : Inv s) {i : Instr} (hd : decode s.cmd = .ok i)
    (hv : validate s.addrW.words i (latch i s) = none) : Inv (accept i s) :=
  { h with
    latched_ok := by
      intro j hj
      obtain rfl : latch i s = j := Option.some.inj hj
      exact ⟨hd, rfl, hv⟩ }

theorem inv_issue {s : State} (h : Inv s) (hi : s.engine = none) {i : Instr} (hd : decode s.cmd = .ok i) :
    Inv (issue i s) := by
  obtain ⟨e, -, he⟩ | ⟨hv, he⟩ := issue_cases i s <;> rw [he]
  · exact inv_reject h hi e
  · exact inv_accept h hd hv

/-- A busy engine that meets the invariant completes at its turn: its latched command is in range (R164, R167). -/
theorem engineTurn_completes {s : State} (h : Inv s) {j : Latched} (hj : s.engine = some j) :
    engineTurn s = .next (complete (effectOf j.instr j s)) := by
  rw [engineTurn_busy hj]
  exact exec_busy _ hj (validate_none.1 (h.latched_ok j hj).validated).1

/-- Completion writes only words of PMEM, and leaves the engine IDLE (R41, R165). -/
theorem inv_complete_effectOf {s : State} (h : Inv s) {j : Latched} (hj : s.engine = some j) :
    Inv (complete (effectOf j.instr j s)) := by
  have hr := (validate_none.1 (h.latched_ok j hj).validated).1
  rw [effectOf_frame]
  exact { h with
    pmem_wf := effectOf_wf j.instr j s h.pmem_wf
    pmem_bounded := effectOf_below j.instr j s hr h.pmem_bounded
    latched_ok := latched_ok_of_idle rfl }

theorem inv_engineTurn {s : State} (h : Inv s) : ∃ t, engineTurn s = .next t ∧ Inv t := by
  cases he : s.engine with
  | none => exact ⟨s, engineTurn_idle he, h⟩
  | some j => exact ⟨_, engineTurn_completes h he, inv_complete_effectOf h he⟩

/-! Reset -/

/-- The buffers that a reset leaves unspecified lie in PMEM (R167, R342). -/
theorem abandonedBuffers_fit {s : State} (h : Inv s) : ∀ b ∈ abandonedBuffers s, b.base + b.size ≤ s.addrW.words := by
  rw [abandonedBuffers]
  cases he : s.engine with
  | none => simp
  | some j => exact writtenBuffers_fit (validate_none.1 (h.latched_ok j he).validated).1

/-- After reset every register is 0, the engine IDLE, and the words drawn are words of PMEM (R340, R342). -/
theorem inv_resetMachine {s : State} (h : Inv s) : Inv (resetMachine s) where
  pmem_wf := scrambleBuffers_keeps (P := fun m => m.wf = true) _ _ _
    (fun _ _ _ _ _ _ hm => writeWord_wf _ _ _ hm) h.pmem_wf
  pmem_bounded := scrambleBuffers_keeps (P := fun m => m.Below (4 * s.addrW.words)) _ _ _
    (fun b hb k hk _ _ hm => writeWord_below _ _ _ _ (by have := abandonedBuffers_fit h b hb; omega) hm) h.pmem_bounded
  src_bounded := words_pos s.addrW
  dst_bounded := words_pos s.addrW
  scr_bounded := words_pos s.addrW
  ecode_legal := Nat.zero_le 4
  err_iff_ecode := iff_of_false Bool.false_ne_true (not_not_intro rfl)
  latched_ok := latched_ok_of_idle rfl

/-! Host transactions -/

/-- A write of STATUS clears ERR and ECODE together, or neither (R27). -/
theorem inv_writeStatus {s : State} (h : Inv s) (v : Word) : Inv (writeStatus v s) := by
  have hstatus : (writeStatus v s).ecode.toNat ≤ 4 ∧ ((writeStatus v s).err = true ↔ (writeStatus v s).ecode ≠ 0) := by
    cases hv : v.getLsbD 2 with
    | true => simp only [writeStatus, hv]; simp
    | false => simp only [writeStatus, hv]; simpa using ⟨h.ecode_legal, h.err_iff_ecode⟩
  obtain ⟨hlegal, hiff⟩ := hstatus
  exact { h with
    ecode_legal := hlegal
    err_iff_ecode := hiff
    latched_ok := fun j hj => ⟨(h.latched_ok j hj).cmd_decodes, (h.latched_ok j hj).operands_held,
      (h.latched_ok j hj).validated⟩ }

theorem baseValue_lt (s : State) (v : Word) : (baseValue s v).toNat < s.addrW.words := by
  rw [baseValue_toNat]
  exact Nat.mod_lt _ (words_pos _)

/-- A store that the busy gate lets through keeps the invariant: it touches no operand of a running command (R31), and a base
keeps its low ADDR_W bits (R30). -/
theorem inv_storeCsr {s : State} (h : Inv s) (v : Word) {r : Csr} (hg : r.gated = false ∨ s.engine = none) :
    Inv (storeCsr s v r) := by
  have idle (hr : r.gated = true) : s.engine = none := hg.resolve_left (by simp [hr])
  cases r with
  | id | pkOut | upA | upR | upG | upB => exact h
  | status => exact inv_writeStatus h v
  | ctrl => exact inv_congr h _ _ _ _ _ _
  | cmd | width | height | pkA | pkR | pkG | pkB | upIn =>
    exact { h with latched_ok := latched_ok_of_idle (idle rfl) }
  | srcBase => exact { h with src_bounded := baseValue_lt s v, latched_ok := latched_ok_of_idle (idle rfl) }
  | dstBase => exact { h with dst_bounded := baseValue_lt s v, latched_ok := latched_ok_of_idle (idle rfl) }
  | scrBase => exact { h with scr_bounded := baseValue_lt s v, latched_ok := latched_ok_of_idle (idle rfl) }

/-- A CMD write in IDLE ends in rejection or acceptance (R161). -/
theorem inv_issueWord {s : State} (h : Inv s) (hi : s.engine = none) :
    ∃ t, issueWord s.cmd s = .next t ∧ Inv t := by
  cases hd : decode s.cmd with
  | error e => exact ⟨_, issueWord_error hd s, inv_reject h hi e⟩
  | ok i => exact ⟨_, (issueWord_ok hd s).trans (exec_idle i hi), inv_issue h hi hd⟩

theorem inv_writeRegister {s : State} (h : Inv s) (r : Csr) (v : Word) :
    ∃ t, writeRegister r v s = .next t ∧ Inv t := by
  by_cases hg : r.gated = true ∧ s.busy = true
  · exact ⟨_, writeRegister_refused hg.1 hg.2 v, inv_congr h _ _ _ _ _ _⟩
  · have hopen : r.gated = false ∨ s.busy = false := by simpa [or_iff_not_imp_left] using hg
    have hstore : Inv (storeCsr s v r) := inv_storeCsr h v (hopen.imp_right engine_of_idle)
    by_cases hc : r = .cmd
    · subst hc
      have hi : s.engine = none := engine_of_idle (hopen.resolve_left (by decide))
      rw [writeRegister_cmd hi]
      exact inv_issueWord hstore hi
    · exact ⟨_, writeRegister_store hc hopen v, hstore⟩

theorem inv_csrWrite {s : State} (h : Inv s) (o : BitVec 12) (v : Word) : ∃ t, csrWrite o v s = .next t ∧ Inv t := by
  cases ha : aligned o with
  | false => exact ⟨_, csrWrite_misaligned ha v s, inv_congr h _ _ _ _ _ _⟩
  | true =>
    have hack : Inv (acknowledge s) := inv_congr h _ _ _ _ _ _
    cases hr : csrAt o with
    | none => exact ⟨_, csrWrite_unmapped ha hr v s, hack⟩
    | some r =>
      rw [csrWrite_mapped ha hr]
      exact inv_writeRegister hack r v

/-- A PMEM write in IDLE writes a word of PMEM, in BUSY none (R41, R47). -/
theorem inv_pmemWrite {s : State} (h : Inv s) (wa v : Word) : Inv (pmemWrite wa v s) := by
  cases hb : s.busy with
  | true => rw [pmemWrite_busy hb]; exact inv_congr h _ _ _ _ _ _
  | false =>
    rw [pmemWrite_idle hb]
    exact { h with
      pmem_wf := writeWord_wf _ _ v h.pmem_wf
      pmem_bounded := writeWord_below _ _ _ v (pmemIndex_lt s wa) h.pmem_bounded
      latched_ok := latched_ok_of_idle (engine_of_idle hb) }

theorem inv_pmemRead {s : State} (h : Inv s) (wa : Word) : Inv (pmemRead wa s) := by
  rw [pmemRead]
  split <;> exact inv_congr h _ _ _ _ _ _

theorem inv_transact {s : State} (h : Inv s) (x : Txn) : ∃ t, transact x s = .next t ∧ Inv t := by
  cases x with
  | csrRead o =>
    obtain ⟨r, hr⟩ := csrRead_frame o s
    exact ⟨_, rfl, hr ▸ inv_congr h _ _ _ _ _ _⟩
  | csrWrite o v => exact inv_csrWrite h o v
  | pmemRead wa => exact ⟨_, rfl, inv_pmemRead h wa⟩
  | pmemWrite wa v => exact ⟨_, rfl, inv_pmemWrite h wa v⟩

theorem inv_handle {s : State} (h : Inv s) (e : Event) : ∃ t, handle e s = .next t ∧ Inv t := by
  cases e with
  | host x => exact inv_transact h x
  | engine => exact inv_engineTurn h
  | reset => exact ⟨_, rfl, inv_resetMachine h⟩

/-! Completion -/

/-- In BUSY a host transaction changes STATUS, CTRL and the recorded answer only (R31, R47, R350). -/
theorem transact_busy {s : State} (hb : s.busy = true) (x : Txn) : ∃ t, transact x s = .next t ∧ t = { s with
    done := t.done
    err := t.err
    ecode := t.ecode
    accErr := t.accErr
    ie := t.ie
    response := t.response } := by
  cases x with
  | csrRead o =>
    obtain ⟨r, hr⟩ := csrRead_frame o s
    exact ⟨_, rfl, by rw [hr]⟩
  | csrWrite o v => exact csrWrite_busy o v hb
  | pmemRead wa => exact ⟨_, rfl, by rw [pmemRead_busy hb]; rfl⟩
  | pmemWrite wa v => exact ⟨_, rfl, by rw [pmemWrite_busy hb]; rfl⟩

/-- The turn of a busy engine that meets the invariant leaves it IDLE with DONE set (R165). -/
theorem engineTurn_done {s : State} (h : Inv s) (hb : s.busy = true) :
    ∃ t, engineTurn s = .next t ∧ t.busy = false ∧ t.done = true := by
  obtain ⟨j, hj⟩ := engine_of_busy hb
  exact ⟨_, engineTurn_completes h hj, rfl, rfl⟩

end Sys2Proof.Machine
end

section
/-! Laws of a command's issue (41_filter_contract.md R161 to R163, R167 to R169): which checks reject it, and what an image
command of zero area does. -/

namespace Sys2Proof.Machine

/-! Validation -/

/-- A buffer past PMEM is reported before any overlap (R302). -/
theorem validate_range {words : Nat} {i : Instr} {j : Latched} (h : inRange words i j = false) :
    validate words i j = some .range := by
  simp [validate, h]

theorem validate_overlap {words : Nat} {i : Instr} {j : Latched} (hr : inRange words i j = true)
    (ha : aliasingViolation i j = true) : validate words i j = some .overlap := by
  simp [validate, hr, ha]

/-- A command that fails validation is rejected with the check's code (R163). -/
theorem exec_rejects {i : Instr} {s : State} {e : ErrCode} (hi : s.engine = none)
    (hv : validate s.addrW.words i (latch i s) = some e) : exec i s = .next (reject e s) := by
  rw [exec_idle i hi, issue, hv]

/-- A command that passes validation is accepted (R162). -/
theorem exec_accepts {i : Instr} {s : State} (hi : s.engine = none)
    (hv : validate s.addrW.words i (latch i s) = none) : exec i s = .next (accept i s) := by
  rw [exec_idle i hi, issue, hv]

/-- Only reserved opcodes and reserved bits make a word illegal (R107). -/
theorem decode_error {c : Word} {e : ErrCode} (h : decode c = .error e) : e = .opc ∨ e = .rsvd := by
  by_cases hop : 1 ≤ (opField c).toNat ∧ (opField c).toNat ≤ 8
  · rw [decode_listed hop.1 hop.2] at h
    split at h
    · cases h
    · cases h; exact .inr rfl
  · rw [decode_reserved (by omega)] at h
    cases h; exact .inl rfl

/-! Aliasing -/

/-- Two buffers of one size overlap when they share a word: the higher of the two bases is in both (R168). -/
theorem overlaps_iff_shareWord {i k : Image} {n : Nat} (hi : i.size = n) (hk : k.size = n) :
    i.overlaps k = true ↔ shareWord i.base k.base n := by
  simp only [overlaps_iff, hi, hk, shareWord, inExtent]
  constructor
  · intro h
    exact ⟨max i.base k.base, by omega, by omega⟩
  · rintro ⟨a, hia, hka⟩
    omega

/-- Where an operation may run in place, only different bases can offend (R168). -/
theorem partialOverlap_iff (j : Latched) : partialOverlap j = true ↔
    j.src.toNat ≠ j.dst.toNat ∧ shareWord j.src.toNat j.dst.toNat (j.w.toNat * j.h.toNat) := by
  have hbase : (j.src != j.dst) = true ↔ j.src.toNat ≠ j.dst.toNat := by
    rw [bne_iff_ne, ne_eq, ← BitVec.toNat_inj]
  rw [partialOverlap, Bool.and_eq_true, hbase, overlaps_iff_shareWord (n := j.w.toNat * j.h.toNat) rfl rfl]
  rfl

/-- The rows of R168 by the words that the buffers share. -/
theorem aliasingViolation_iff {i : Instr} (hi : isImageCommand i = true) (j : Latched) :
    let n := j.w.toNat * j.h.toNat
    let src := j.src.toNat
    let dst := j.dst.toNat
    let scr := j.scr.toNat
    aliasingViolation i j = true ↔
      ((i = .blur5 ∨ i = .blur3 ∨ ∃ gm bz, i = .sobel gm bz) ∧ shareWord src dst n) ∨
      (((∃ p, i = .pixelate p) ∨ ∃ p, i = .rinvert p) ∧ src ≠ dst ∧ shareWord src dst n) ∨
      ((∃ p, i = .rblur p) ∧
        ((src ≠ dst ∧ shareWord src dst n) ∨ shareWord scr src n ∨ shareWord scr dst n)) := by
  intro n src dst scr
  have hpartial : partialOverlap j = true ↔ src ≠ dst ∧ shareWord src dst n := partialOverlap_iff j
  have hsrcDst : j.srcImage.overlaps j.dstImage = true ↔ shareWord src dst n := overlaps_iff_shareWord rfl rfl
  have hscrSrc : j.scrImage.overlaps j.srcImage = true ↔ shareWord scr src n := overlaps_iff_shareWord rfl rfl
  have hscrDst : j.scrImage.overlaps j.dstImage = true ↔ shareWord scr dst n := overlaps_iff_shareWord rfl rfl
  cases i with
  | pack | unpack => cases hi
  | blur5 | blur3 | sobel gm bz => simp [aliasingViolation, hsrcDst]
  | pixelate p | rinvert p => simp [aliasingViolation, hpartial]
  | rblur p => simp [aliasingViolation, hpartial, hscrSrc, hscrDst, or_assoc]

/-! Zero area -/

/-- A buffer without words overlaps no other (R168). -/
theorem not_overlaps_of_empty {i k : Image} (h : i.size = 0) : i.overlaps k = false := by
  simp [Image.overlaps, h]

/-- A buffer without words has no pixel to write, so memory stays as it is (R169). -/
theorem effectOf_pmem_of_zero_area (i : Instr) {j : Latched} (h0 : j.w.toNat * j.h.toNat = 0) (s : State) :
    (effectOf i j s).pmem = s.pmem := by
  refine effectOf_keeps (P := fun m => m = s.pmem) i j s (fun x y v m hx hy _ => ?_) (fun _ k hk v m _ => ?_) rfl
  · have hpos : 0 < j.w.toNat * j.h.toNat := Nat.mul_pos (Nat.zero_lt_of_lt hx) (Nat.zero_lt_of_lt hy)
    omega
  · have hsize : k < j.w.toNat * j.h.toNat := hk
    omega

section
variable {i : Instr} (hi : isImageCommand i = true) {j : Latched} (h0 : j.w.toNat * j.h.toNat = 0)
include hi h0

/-- An image command of zero area passes every check, when its bases are addresses of PMEM (R167, R169). -/
theorem inRange_of_zero_area {words : Nat} (hsrc : j.src.toNat < words) (hdst : j.dst.toNat < words)
    (hscr : j.scr.toNat < words) : inRange words i j = true := by
  rw [inRange_image_iff hi]
  simp only [Image.size, Latched.srcImage, Latched.dstImage, Latched.scrImage, h0]
  exact ⟨hsrc.le, hdst.le, fun _ => hscr.le⟩

theorem not_aliasingViolation_of_zero_area : aliasingViolation i j = false := by
  have hsrc : j.srcImage.overlaps j.dstImage = false := not_overlaps_of_empty h0
  have hscr (k : Image) : j.scrImage.overlaps k = false := not_overlaps_of_empty h0
  cases i with
  | pack | unpack => cases hi
  | blur5 | blur3 | sobel gm bz => exact hsrc
  | pixelate p | rinvert p => simp [aliasingViolation, partialOverlap, hsrc]
  | rblur p => simp [aliasingViolation, partialOverlap, hsrc, hscr]

theorem effectOf_draws_of_zero_area (s : State) : (effectOf i j s).draws = s.draws := by
  cases i with
  | pack | unpack => cases hi
  | rblur p => exact congrArg (s.draws + ·) h0
  | _ => rfl

/-- The operation of an image command of zero area changes nothing (R169). -/
theorem effectOf_of_zero_area (s : State) : effectOf i j s = s := by
  obtain ⟨hA, hR, hG, hB⟩ := effectOf_up i j s (by rintro rfl; cases hi)
  rw [effectOf_frame, effectOf_pmem_of_zero_area i h0, effectOf_draws_of_zero_area hi h0,
    effectOf_pkOut i j s (by rintro rfl; cases hi), hA, hR, hG, hB]

end

end Sys2Proof.Machine
end

section
/-! What a command leaves in DST, of the SRC words as they were (41_filter_contract.md R171): the two quadrant traversals, and
then every image command at once. -/

namespace Sys2Proof.Machine

/-! The base regions of a traversal (R250, R257) -/

/-- The quadrants of a region hold each of its pixels once (R250). -/
theorem quadrants_pixels_perm (r : Region) :
    List.Perm (r.topLeft.pixels ++ r.topRight.pixels ++ r.bottomLeft.pixels ++ r.bottomRight.pixels) r.pixels := by
  have hnodup : (r.topLeft.pixels ++ r.topRight.pixels ++ r.bottomLeft.pixels ++ r.bottomRight.pixels).Nodup := by
    simp only [List.nodup_append', pixels_nodup, true_and, List.disjoint_left, List.mem_append]
    refine ⟨⟨?_, ?_⟩, ?_⟩ <;> rintro ⟨x, y⟩ <;>
      simp only [mem_pixels, contains_iff, Region.topLeft, Region.topRight, Region.bottomLeft, Region.bottomRight] <;>
      omega
  refine (List.perm_ext_iff_of_nodup hnodup (pixels_nodup r)).2 ?_
  rintro ⟨x, y⟩
  simp only [List.mem_append, mem_pixels, contains_iff, Region.topLeft, Region.topRight, Region.bottomLeft,
    Region.bottomRight]
  omega

/-- With levels enough for its size, the base regions of a traversal hold each pixel of its root once (R257). -/
theorem baseRegions_pixels_perm {t : Nat} (ht : 1 ≤ t) (n : Nat) {r : Region} (hw : r.w ≤ 2 ^ n) (hh : r.h ≤ 2 ^ n) :
    List.Perm (((visit t n r).filter (·.isBase t)).flatMap Region.pixels) r.pixels := by
  have base (n : Nat) {r : Region} (hb : r.isBase t = true) :
      List.Perm (((visit t n r).filter (·.isBase t)).flatMap Region.pixels) r.pixels := by
    simp [visit_base t n hb, hb]
  induction n generalizing r with
  | zero => exact base 0 (by simp only [Region.isBase, decide_eq_true_eq]; omega)
  | succ n ih =>
    cases hb : r.isBase t with
    | true => exact base (n + 1) hb
    | false =>
      rw [pow_succ] at hw hh
      rw [visit_split t n hb, List.filter_cons_of_neg (by simp [hb])]
      simp only [List.filter_append, List.flatMap_append]
      refine List.Perm.trans ?_ (quadrants_pixels_perm r)
      refine (((ih ?_ ?_).append (ih ?_ ?_)).append (ih ?_ ?_)).append (ih ?_ ?_) <;>
        simp only [Region.topLeft, Region.topRight, Region.bottomLeft, Region.bottomRight] <;> omega

/-! RINVERT and RBLUR -/

/-- RINVERT leaves in each pixel of DST the inverse of its SRC pixel as it was (R255). -/
theorem pix_rinvertImage {src dst : Image} (hal : Aligned src dst) (hw : src.w = dst.w) (hh : src.h = dst.h)
    (hw' : dst.w ≤ 2 ^ traversalLevels) (hh' : dst.h ≤ 2 ^ traversalLevels) {t : Nat} (ht : 1 ≤ t) (m : Memory)
    {x y : Nat} (hx : x < dst.w) (hy : y < dst.h) :
    dst.pix (rinvertImage src dst t m) x y = invertPixel (src.pix m x y) := by
  have hperm : List.Perm (((visitImage t dst).filter (·.isBase t)).flatMap Region.pixels) dst.region.pixels :=
    baseRegions_pixels_perm ht _ hw' hh'
  have hbound : ∀ p ∈ ((visitImage t dst).filter (·.isBase t)).flatMap Region.pixels, p.1 < dst.w ∧ p.2 < dst.h :=
    fun p hp => (mem_image_pixels dst p.1 p.2).1 (hperm.mem_iff.1 hp)
  rw [rinvertImage, foldl_invertRegion]
  exact pix_invertPixels hal _ m (hperm.nodup_iff.2 (pixels_nodup _)) hbound
    (fun p hp => by rw [hw, hh]; exact hbound p hp) (x, y)
    (hperm.mem_iff.2 ((mem_image_pixels dst x y).2 ⟨hx, hy⟩))

/-- No byte of a pixel is in a buffer that stands apart. -/
theorem not_hasByte_of_apart {i k : Image} (h : Apart i k) {x y a : Nat} (hx : x < i.w) (hy : y < i.h)
    (ha : a / 4 = i.addr x y) : ¬ k.hasByte a := by
  intro hk
  obtain ⟨u, v, hu, hv, e⟩ := exists_pixel_of_hasByte k hk
  exact h x y u v hx hy hu hv (ha.symm.trans e)

/-- RBLUR leaves in DST the picture that SRC held, with every region of the traversal blurred in order; its draws are in
SCR (R252, U2). -/
theorem pix_rblurEffect {p : Nat} {j : Latched} (hal : aliasingViolation (.rblur p) j = false) (s : State) {x y : Nat}
    (hx : x < j.w.toNat) (hy : y < j.h.toNat) :
    j.dstImage.pix (rblurEffect p j s).pmem x y =
      (visitImage (blurThreshold p) j.dstImage).foldl (Picture.blurRegion j.w.toNat j.h.toNat)
        (j.srcImage.picture s.pmem) x y := by
  obtain ⟨hsrc, hscr⟩ := rblur_apart hal
  have hbound {r : Region} (hr : r ∈ visitImage (blurThreshold p) j.dstImage) := visitImage_in_bounds _ _ hr
  calc j.dstImage.pix (rblurEffect p j s).pmem x y
      = j.dstImage.pix (rblurImage j.srcImage j.dstImage j.scrImage (blurThreshold p) s.pmem) x y :=
        pix_congr _ fun a ha => scramble_outside j.scrImage _ _ (not_hasByte_of_apart hscr hx hy ha)
    _ = (visitImage (blurThreshold p) j.dstImage).foldl (Picture.blurRegion j.w.toNat j.h.toNat)
          (j.dstImage.picture (loadWorking j.srcImage j.dstImage s.pmem)) x y :=
        pix_foldl_blurRegion hscr _ _ (fun r hr => hbound hr) (fun r hr => hbound hr) hx hy
    _ = _ := foldl_picture_blurRegion_congr _ (fun u v hu hv => pix_loadWorking hsrc rfl rfl s.pmem hu hv) hx hy

/-! Every image command -/

/-- What an image command leaves in DST depends on the SRC words only (R171). -/
theorem dst_pix_effectOf_congr {i : Instr} (hi : isImageCommand i = true) {j : Latched}
    (hal : aliasingViolation i j = false) {s s' : State}
    (hsrc : ∀ u v, u < j.w.toNat → v < j.h.toNat → j.srcImage.pix s.pmem u v = j.srcImage.pix s'.pmem u v) {x y : Nat}
    (hx : x < j.w.toNat) (hy : y < j.h.toNat) :
    j.dstImage.pix (effectOf i j s).pmem x y = j.dstImage.pix (effectOf i j s').pmem x y := by
  have haligned : Aligned j.srcImage j.dstImage := aligned_of_not_alias hi hal
  have boxBlur_congr (hap : Apart j.srcImage j.dstImage) (k : Nat) :
      j.dstImage.pix (boxBlur j.srcImage j.dstImage k s.pmem) x y =
        j.dstImage.pix (boxBlur j.srcImage j.dstImage k s'.pmem) x y := by
    rw [pix_boxBlur hap rfl rfl k _ hx hy, pix_boxBlur hap rfl rfl k _ hx hy]
    exact picture_boxAvg_congr hsrc hx hy
  cases i with
  | pack | unpack => cases hi
  | blur5 => exact boxBlur_congr (apart_of_not_alias hal) 2
  | blur3 => exact boxBlur_congr (apart_of_not_alias hal) 1
  | sobel gm bz =>
    have result (s : State) := pix_sobelImage gm bz (apart_of_not_alias hal) rfl rfl s.pmem hx hy
    exact (result s).trans ((sobelPixel_congr gm bz _ hsrc hx hy).trans (result s').symm)
  | pixelate p =>
    have result (s : State) := pix_pixelateImage haligned (blockSize_pos p) rfl rfl s.pmem hx hy
    refine (result s).trans ((blockAvg_congr _ _ fun q hq => ?_).trans (result s').symm)
    obtain ⟨hq1, hq2⟩ := block_in_bounds (blockSize_pos p) (mem_own_block (blockSize_pos p) hx hy).1 q hq
    exact hsrc q.1 q.2 hq1 hq2
  | rblur p =>
    rw [effectOf, pix_rblurEffect hal s hx hy, pix_rblurEffect hal s' hx hy]
    exact foldl_picture_blurRegion_congr _ hsrc hx hy
  | rinvert p =>
    have dim (d : BitVec 16) : d.toNat ≤ 2 ^ traversalLevels := d.isLt.le.trans (by decide)
    have result (s : State) :=
      pix_rinvertImage haligned rfl rfl (dim j.w) (dim j.h) (invertThreshold_pos p) s.pmem hx hy
    exact (result s).trans ((congrArg invertPixel (hsrc x y hx hy)).trans (result s').symm)

end Sys2Proof.Machine
end

section
/-! Proofs of the statements about the contract of a command (41_filter_contract.md). -/

namespace Sys2Proof.Machine

/-- Settles O6: a word that does not decode is rejected, with the number of its code. -/
theorem illegalWordIsRejected : Obligations.IllegalWordIsRejected := by
  intro s c e rest hi hev hd
  have hcode := decode_error hd
  refine ⟨hcode, ?_⟩
  rw [step_cmdWrite hi hev, issueWord_error hd]
  obtain rfl | rfl := hcode <;> rfl

/-- Settles O7: the engine has the turn by its own event and when none is left. -/
theorem engineTurnRunsLatchedCommand : Obligations.EngineTurnRunsLatchedCommand := by
  refine fun s => ⟨fun j hj => ⟨fun hev => ?_, fun rest hev => ?_⟩, fun hi => ⟨fun hev => ?_, fun rest hev => ?_⟩⟩
  · rw [step_nil hev, engineTurn_busy hj]
  · rw [step_cons hev]; exact engineTurn_busy hj
  · rw [step_nil hev, engineTurn_idle hi]
  · rw [step_cons hev]; exact engineTurn_idle hi

/-- Settles O8: one buffer past PMEM puts the command out of range, and that check comes first. -/
theorem bufferPastMemoryIsRejected : Obligations.BufferPastMemoryIsRejected := by
  intro s i hidle hi hpast
  refine exec_rejects hidle (validate_range (Bool.eq_false_iff.2 fun hr => ?_))
  obtain ⟨hsrc, hdst, hscr⟩ := inRange_image hi hr
  exact hpast.elim hsrc.not_gt fun h => h.elim hdst.not_gt fun ⟨hrb, hp⟩ => (hscr hrb).not_gt hp

/-- Settles O9: in range, the aliasing check alone decides, and it reports the rows of R168. -/
theorem aliasingDecidesAcceptance : Obligations.AliasingDecidesAcceptance := by
  intro s i hidle hi latched n src dst scr violation hsrc hdst hscr
  have hr : inRange s.addrW.words i latched = true := (inRange_image_iff hi).2 ⟨hsrc, hdst, hscr⟩
  have hal : aliasingViolation i latched = true ↔ violation := aliasingViolation_iff hi latched
  refine ⟨fun hv => exec_rejects hidle (validate_overlap hr (hal.2 hv)), fun hv => exec_accepts hidle ?_⟩
  exact validate_none.2 ⟨hr, Bool.eq_false_iff.2 (mt hal.1 hv)⟩

/-- Settles O10: no check can fail a command without buffers. -/
theorem packAndUnpackAreAlwaysAccepted : Obligations.PackAndUnpackAreAlwaysAccepted := by
  rintro s i hidle (rfl | rfl) <;> exact exec_idle_of_no_image rfl hidle

/-- Settles O11: buffers without words pass both checks, and the operation has no pixel to write. -/
theorem zeroAreaImageCompletesUntouched : Obligations.ZeroAreaImageCompletesUntouched := by
  intro s i hi
  have area {w h : BitVec 16} (hwh : w = 0 ∨ h = 0) : w.toNat * h.toNat = 0 := by
    rcases hwh with rfl | rfl <;> simp
  refine ⟨fun hidle hwh hsrc hdst hscr => exec_accepts hidle (validate_none.2 ⟨?_, ?_⟩),
    fun j hj hwh hsrc hdst hscr => ?_⟩
  · exact inRange_of_zero_area hi (area hwh) hsrc hdst hscr
  · exact not_aliasingViolation_of_zero_area hi (area hwh)
  · rw [exec_busy i hj (inRange_of_zero_area hi (area hwh) hsrc hdst hscr), effectOf_of_zero_area hi (area hwh)]
    rfl

/-- Settles O55: the operation of an image command leaves in DST what SRC held, and those of PACK and UNPACK read the latched
operands alone. -/
theorem resultDependsOnlyOnOperands : Obligations.ResultDependsOnlyOnOperands := by
  intro i s s' j hj hj' haddr hr hal hsrc
  refine ⟨_, _, exec_busy i hj hr, exec_busy i hj' (haddr ▸ hr), fun hi x y hx hy => ?_, ?_, ?_⟩
  · exact dst_pix_effectOf_congr hi hal hsrc hx hy
  · rintro rfl hc
    rw [effectOf, packEffect_inRange hc, packEffect_inRange hc]
    rfl
  · rintro rfl
    exact ⟨rfl, rfl, rfl, rfl⟩

/-- Settles O53, by the event that the step takes: each keeps the invariant. -/
theorem stepKeepsInvariantAndNeverStops : Obligations.StepKeepsInvariantAndNeverStops := by
  intro s h
  cases hev : s.events with
  | nil => rw [step_nil hev]; exact inv_engineTurn h
  | cons e rest => rw [step_cons hev]; exact inv_handle (inv_congr h _ _ _ _ _ _) e

/-- Settles O58, by induction on the events to come: a host transaction leaves the command running and one event fewer, and
the engine's turn completes it. -/
theorem acceptedCommandCompletes : Obligations.AcceptedCommandCompletes := by
  intro s h hb hreset
  induction hev : s.events generalizing s with
  | nil =>
    obtain ⟨t, ht, hidle, hdone⟩ := engineTurn_done h hb
    exact ⟨1, t, Nat.le_refl 1, runSteps_succ ((step_nil hev).trans ht) 0, hidle, hdone⟩
  | cons e rest ih =>
    have hinv : Inv { s with events := rest } := inv_congr h _ _ _ _ _ _
    cases e with
    | host x =>
      obtain ⟨t, ht, hframe⟩ := transact_busy (s := { s with events := rest }) hb x
      obtain ⟨t', ht', htinv⟩ := inv_transact hinv x
      obtain rfl : t = t' := Host.Outcome.next.inj (ht.symm.trans ht')
      have hevents : t.events = rest := by rw [hframe]
      have hbusy : t.busy = true := by rw [hframe]; exact hb
      obtain ⟨n, u, hn, hrun, hidle, hdone⟩ := ih t htinv hbusy
        (fun e he => hreset e (by rw [hev]; exact List.mem_cons_of_mem _ (hevents ▸ he))) hevents
      exact ⟨n + 1, u, Nat.succ_le_succ hn, (runSteps_succ ((step_cons hev).trans ht) n).trans hrun, hidle, hdone⟩
    | engine =>
      obtain ⟨t, ht, hidle, hdone⟩ := engineTurn_done hinv hb
      exact ⟨1, t, Nat.le_add_left 1 _, runSteps_succ ((step_cons hev).trans ht) 0, hidle, hdone⟩
    | reset => exact absurd rfl (hreset .reset (by rw [hev]; exact List.mem_cons_self))

end Sys2Proof.Machine
end

section
/-! Laws of the mean of some pixels, and of the window and the box average (42_convolution.md R200 to R205). -/

namespace Sys2Proof.Machine

/-! The mean pixel -/

@[simp] theorem chA_meanPixel (alpha : Byte) (qs : List Word) : chA (meanPixel alpha qs) = alpha := chA_argb _ _ _ _

/-- Red, green and blue of a mean pixel are the truncated means of their channels; no value wraps (R201, R281). -/
theorem channel_meanPixel {ch : Word → Byte} (hch : ch = chR ∨ ch = chG ∨ ch = chB) (alpha : Byte) (qs : List Word) :
    (ch (meanPixel alpha qs)).toNat = channelSum ch qs / qs.length := by
  rw [← meanByte_toNat]
  rcases hch with rfl | rfl | rfl
  · rw [meanPixel, chR_argb]
  · rw [meanPixel, chG_argb]
  · rw [meanPixel, chB_argb]

/-- A mean lies between any bounds of its samples. -/
theorem channel_meanPixel_bounds {ch : Word → Byte} (hch : ch = chR ∨ ch = chG ∨ ch = chB) (alpha : Byte)
    {qs : List Word} (hpos : 0 < qs.length) {lo hi : Nat} (h : ∀ q ∈ qs, lo ≤ (ch q).toNat ∧ (ch q).toNat ≤ hi) :
    lo ≤ (ch (meanPixel alpha qs)).toNat ∧ (ch (meanPixel alpha qs)).toNat ≤ hi := by
  have hlo : (qs.map fun q => (ch q).toNat).length * lo ≤ channelSum ch qs :=
    le_sum_of_forall_le (List.forall_mem_map.2 fun q hq => (h q hq).1)
  have hhi : channelSum ch qs ≤ (qs.map fun q => (ch q).toNat).length * hi :=
    sum_le_of_forall_le (List.forall_mem_map.2 fun q hq => (h q hq).2)
  rw [List.length_map] at hlo hhi
  rw [channel_meanPixel hch]
  exact ⟨(Nat.le_div_iff_mul_le hpos).2 (Nat.mul_comm lo _ ▸ hlo), Nat.div_le_of_le_mul hhi⟩

/-- The mean of equal pixels, with their alpha, is that pixel (R205 (b)). -/
theorem meanPixel_of_forall_eq {qs : List Word} (hpos : 0 < qs.length) {p : Word} (h : ∀ q ∈ qs, q = p) :
    meanPixel (chA p) qs = p := by
  have hchannel {ch : Word → Byte} (hch : ch = chR ∨ ch = chG ∨ ch = chB) : ch (meanPixel (chA p) qs) = ch p := by
    have hbounds := channel_meanPixel_bounds hch (chA p) hpos (lo := (ch p).toNat) (hi := (ch p).toNat)
      fun q hq => by rw [h q hq]; exact ⟨le_rfl, le_rfl⟩
    exact BitVec.eq_of_toNat_eq (le_antisymm hbounds.2 hbounds.1)
  exact word_ext (chA_meanPixel _ _) (hchannel (.inl rfl)) (hchannel (.inr (.inl rfl))) (hchannel (.inr (.inr rfl)))

/-! The window of an in-bounds centre -/

section
variable {w h x y : Nat} (hx : x < w) (hy : y < h) (k : Nat)
include hx hy

theorem centre_mem_window : (x, y) ∈ window w h x y k := (mem_window w h x y k x y).2 (by omega)

/-- The number of samples, as the area of the clipped window (R202). -/
theorem length_window : (window w h x y k).length =
    (min (x + k) (w - 1) - (x - k) + 1) * (min (y + k) (h - 1) - (y - k) + 1) :=
  (window_perm w h x y k hx hy).length_eq.trans (length_pixels _)

theorem length_window_le : (window w h x y k).length ≤ (2 * k + 1) ^ 2 := by
  rw [length_window hx hy, sq]
  exact Nat.mul_le_mul (by omega) (by omega)

/-- A sum over the window, row by row over the clipped intervals. -/
theorem sum_window (f : Nat → Nat → Nat) : ((window w h x y k).map fun p => f p.1 p.2).sum =
    ∑ ny ∈ Finset.Icc (y - k) (min (y + k) (h - 1)), ∑ nx ∈ Finset.Icc (x - k) (min (x + k) (w - 1)), f nx ny := by
  have clipped {v n : Nat} (hv : v < n) :
      Finset.Ico (v - k) (v - k + (min (v + k) (n - 1) - (v - k) + 1)) = Finset.Icc (v - k) (min (v + k) (n - 1)) := by
    ext u
    simp only [Finset.mem_Ico, Finset.mem_Icc]
    omega
  rw [((window_perm w h x y k hx hy).map _).sum_eq, sum_pixels, clippedWindow, clipped hx, clipped hy]

/-- The number of samples, from the clipped intervals (R202). -/
theorem length_window_eq_card : (window w h x y k).length =
    (Finset.Icc (y - k) (min (y + k) (h - 1))).card * (Finset.Icc (x - k) (min (x + k) (w - 1))).card := by
  have interval {v n : Nat} (hv : v < n) :
      min (v + k) (n - 1) - (v - k) + 1 = (Finset.Icc (v - k) (min (v + k) (n - 1))).card := by
    rw [Nat.card_Icc]; omega
  rw [length_window hx hy, interval hx, interval hy, Nat.mul_comm]

end

end Sys2Proof.Machine
end

section
/-! Proofs of the statements about the box blur (42_convolution.md). -/

namespace Sys2Proof.Machine

/-- Settles O18: the window is a clipped rectangle, and no sample exceeds 255. -/
theorem windowSampleCount : Obligations.WindowSampleCount := by
  intro w h x y k f ch hx hy hk
  have hcount := length_window_le hx hy k
  refine ⟨length_window hx hy k, length_window_pos w h x y k hx hy, hcount, ?_⟩
  have hN : (2 * k + 1) ^ 2 ≤ 25 := by rcases hk with rfl | rfl <;> decide
  calc channelSum ch ((window w h x y k).map fun p => f p.1 p.2)
      ≤ (window w h x y k).length * 255 := (channelSum_le ch _).trans_eq (by rw [List.length_map])
    _ ≤ 25 * 255 := Nat.mul_le_mul_right 255 (hcount.trans hN)

/-- Settles O19: the mean pixel's channels are truncated means, and sum and number of the samples are those of the clipped
intervals. -/
theorem boxAverageIsWindowMean : Obligations.BoxAverageIsWindowMean := by
  intro w h x y k f hx hy xs ys
  refine ⟨chA_meanPixel _ _, fun ch hch => ?_⟩
  rw [Picture.boxAvg, channel_meanPixel hch, channelSum, List.map_map, List.length_map, length_window_eq_card hx hy,
    ← sum_window hx hy k fun nx ny => (ch (f nx ny)).toNat]
  rfl

/-- Settles O20: SRC and DST are apart, so the loop's writes leave every later pixel's samples as they were. -/
theorem boxBlurWritesEveryPixel : Obligations.BoxBlurWritesEveryPixel := by
  intro s j i k hj hi hr hal
  obtain ⟨heffect, hapart⟩ : effectOf i j s = { s with pmem := boxBlur j.srcImage j.dstImage k s.pmem } ∧
      Apart j.srcImage j.dstImage := by
    rcases hi with ⟨rfl, rfl⟩ | ⟨rfl, rfl⟩ <;> exact ⟨rfl, apart_of_not_alias hal⟩
  refine ⟨boxBlur j.srcImage j.dstImage k s.pmem, ?_, fun x y hx hy => pix_boxBlur hapart rfl rfl k _ hx hy,
    fun a ha => boxBlur_outside _ _ k _ ha⟩
  rw [exec_busy i hj hr, heffect]
  rfl

/-- Settles O21: the laws of the mean pixel, on the window, which is not empty and holds the centre. -/
theorem boxAverageLaws : Obligations.BoxAverageLaws := by
  intro w h x y k f hx hy
  have hpos : 0 < ((window w h x y k).map fun p => f p.1 p.2).length := by
    rw [List.length_map]; exact length_window_pos w h x y k hx hy
  refine ⟨chA_meanPixel _ _, fun p heq => ?_, fun ch hch lo hi hbounds => ?_⟩
  · rw [Picture.boxAvg, heq (x, y) (centre_mem_window hx hy k)]
    exact meanPixel_of_forall_eq hpos (List.forall_mem_map.2 heq)
  · exact channel_meanPixel_bounds hch _ hpos (List.forall_mem_map.2 hbounds)

end Sys2Proof.Machine
end

section
/-! Laws of the edge-magnitude pipeline (43_edge_magnitude.md R220 to R225): the gray pixel, the magnitude as a rounded quotient,
and SOBEL's two kinds of output pixel in terms of the picture that SRC holds. -/

namespace Sys2Proof.Machine

/-! The gray pixel and the scale -/

@[simp] theorem chA_grayPixel (mag : Nat) : chA (grayPixel mag) = 255 := chA_argb _ _ _ _

@[simp] theorem chR_grayPixel (mag : Nat) : chR (grayPixel mag) = BitVec.ofNat 8 mag := chR_argb _ _ _ _

@[simp] theorem chG_grayPixel (mag : Nat) : chG (grayPixel mag) = BitVec.ofNat 8 mag := chG_argb _ _ _ _

@[simp] theorem chB_grayPixel (mag : Nat) : chB (grayPixel mag) = BitVec.ofNat 8 mag := chB_argb _ _ _ _

theorem grayScale_pos (gm : GrayMode) : 0 < grayScale gm := by cases gm <;> decide

@[simp] theorem luminance_argb (a r g b : Byte) :
    luminance (argb a r g b) = 2126 * r.toNat + 7152 * g.toNat + 722 * b.toNat := by simp [luminance]

/-! The magnitude -/

/-- The magnitude over the library's square root (R9, R224). -/
theorem magnitude_eq (q : Nat) (gx gy : Int) :
    magnitude q gx gy = min 255 ((Nat.sqrt (4 * (gx * gx + gy * gy).toNat) + q) / (2 * q)) := by
  rw [magnitude, isqrt_eq_sqrt]

/-- A magnitude is a channel value, so the byte of the gray pixel holds it whole (R224). -/
@[simp] theorem magnitude_mod (q : Nat) (gx gy : Int) : magnitude q gx gy % 256 = magnitude q gx gy :=
  Nat.mod_eq_of_lt (Nat.lt_succ_of_le (magnitude_le q gx gy))

/-- Without a gradient the magnitude is 0: one half of the scale rounds down. -/
theorem magnitude_zero {q : Nat} (hq : 0 < q) : magnitude q 0 0 = 0 := by
  have hround : q / (2 * q) = 0 := Nat.div_eq_of_lt (by omega)
  simp [magnitude_eq, hround]

/-- The quotient of R224 reaches m + 1 exactly when (2m + 1)·Q does not exceed the root of 4·S. -/
theorem succ_le_rounded_sqrt_iff {q : Nat} (hq : 0 < q) (m n : Nat) :
    m + 1 ≤ (Nat.sqrt n + q) / (2 * q) ↔ ((2 * m + 1) * q) * ((2 * m + 1) * q) ≤ n := by
  have hsplit : (m + 1) * (2 * q) = (2 * m + 1) * q + q := by ring
  rw [Nat.le_div_iff_mul_le (by omega), hsplit, Nat.add_le_add_iff_right, Nat.le_sqrt]

/-! The gradients and the output pixels -/

/-- The gradients at an interior pixel depend only on the in-bounds grayscale samples (R223). -/
theorem gradients_congr {gm : GrayMode} {f g : Picture} {w h : Nat}
    (hgray : ∀ u v, u < w → v < h → f.gray gm u v = g.gray gm u v) {x y : Nat} (hx : x + 1 < w) (hy : y + 1 < h) :
    f.gradX gm x y = g.gradX gm x y ∧ f.gradY gm x y = g.gradY gm x y := by
  constructor
  · simp (disch := omega) only [Picture.gradX, hgray]
  · simp (disch := omega) only [Picture.gradY, hgray]

/-- A picture of one pixel value has no gradient. -/
theorem gradients_const (gm : GrayMode) (p : Word) (x y : Nat) :
    Picture.gradX gm (fun _ _ => p) x y = 0 ∧ Picture.gradY gm (fun _ _ => p) x y = 0 :=
  ⟨sub_self _, sub_self _⟩

/-- The interior output pixel in terms of the picture (R220, R223, R224). -/
theorem sobelInterior_eq (gm : GrayMode) (src : Image) (m : Memory) {x y : Nat} (hx : 1 ≤ x) (hy : 1 ≤ y) :
    sobelInterior gm src m x y = grayPixel (magnitude (grayScale gm) ((src.picture m).gradX gm x y)
      ((src.picture m).gradY gm x y)) := by
  obtain ⟨hX, hY⟩ := gradient_interior gm src m hx hy
  rw [sobelInterior, hX, hY]

theorem isBorder_iff {w h x y : Nat} : isBorder w h x y = true ↔ x = 0 ∨ y = 0 ∨ x + 1 = w ∨ y + 1 = h :=
  decide_eq_true_iff

theorem sobelPixel_border (gm : GrayMode) (bz : BorderMode) {src : Image} (m : Memory) {x y : Nat}
    (hb : isBorder src.w src.h x y = true) :
    sobelPixel gm bz src m x y = if bz = .copy then src.picture m x y else 0x00000000 := by
  rw [sobelPixel, if_pos hb]
  cases bz <;> rfl

theorem sobelPixel_interior (gm : GrayMode) (bz : BorderMode) {src : Image} (m : Memory) {x y : Nat}
    (hb : ¬ isBorder src.w src.h x y = true) : sobelPixel gm bz src m x y = sobelInterior gm src m x y :=
  if_neg hb

end Sys2Proof.Machine
end

section
/-! Proofs of the statements about the edge magnitude (43_edge_magnitude.md). -/

namespace Sys2Proof.Machine

/-- Settles O23: the quotient's bound is one on the square root, which squares to one on 4·S. -/
theorem magnitudeRoundsHalfUp : Obligations.MagnitudeRoundsHalfUp := by
  intro q m gx gy hq
  refine ⟨magnitude_le q gx gy, fun hm hpos => ?_⟩
  obtain ⟨k, rfl⟩ := Nat.exists_eq_add_of_le' hpos
  have hS : ((gx * gx + gy * gy).toNat : Int) = gx * gx + gy * gy :=
    Int.toNat_of_nonneg (add_nonneg (mul_self_nonneg gx) (mul_self_nonneg gy))
  have hodd : 2 * ((k + 1 : Nat) : Int) - 1 = ((2 * k + 1 : Nat) : Int) := by omega
  rw [magnitude_eq, le_min_iff, and_iff_right hm, succ_le_rounded_sqrt_iff hq, hodd, ← hS]
  norm_cast

/-- Settles O24: SRC and DST are apart, so DST ends with the output pixels of SRC as it was, on the border and inside. -/
theorem sobelWritesEveryPixel : Obligations.SobelWritesEveryPixel := by
  intro s j gm bz hj hr hal f w h
  refine ⟨sobelImage gm bz j.srcImage j.dstImage s.pmem, exec_busy _ hj hr, fun x y hx hy => ?_,
    fun a ha => sobelImage_outside gm bz _ _ _ ha⟩
  rw [pix_sobelImage gm bz (apart_of_not_alias hal) rfl rfl s.pmem hx hy]
  have hborder : isBorder j.srcImage.w j.srcImage.h x y = true ↔ x = 0 ∨ y = 0 ∨ x + 1 = w ∨ y + 1 = h := isBorder_iff
  refine ⟨fun hb => sobelPixel_border gm bz s.pmem (hborder.2 (by omega)), ?_⟩
  rintro ⟨hx1, hx2, hy1, hy2⟩ mag
  rw [sobelPixel_interior gm bz s.pmem (mt hborder.1 (by omega)), sobelInterior_eq gm _ s.pmem hx1 hy1]
  have hmag : magnitude (grayScale gm) (f.gradX gm x y) (f.gradY gm x y) = mag := magnitude_eq _ _ _
  simp [← hmag, f]

/-- Settles O25: the channels of a packed pixel are its four bytes, and the weights of the luminance sum to 10000. -/
theorem grayscaleFormulas : Obligations.GrayscaleFormulas := by
  refine ⟨fun a r g b => ⟨luminance_argb a r g b, ?_, ?_⟩, ⟨rfl, rfl, rfl⟩, fun gm a v => ?_⟩
  · simp only [gray, chR_argb, chG_argb, chB_argb]
  · simp only [gray, luminance_argb]
  · cases gm with
    | lum => simp only [gray, grayScale, luminance_argb]; omega
    | mean => simp only [gray, grayScale, chR_argb, chG_argb, chB_argb]; omega
    | lumt => simp only [gray, grayScale, luminance_argb]; omega

/-- Settles O26: an interior output is the gray pixel of the gradients, and these depend only on the grayscale samples; equal
samples give the gradients of a picture of one value. -/
theorem sobelInteriorLaws : Obligations.SobelInteriorLaws := by
  intro gm src m m' x y hx hw hy hh
  rw [sobelInterior_eq gm src m hx hy, sobelInterior_eq gm src m' hx hy]
  refine ⟨fun p hp => ?_, by simp only [chA_grayPixel, chR_grayPixel, chG_grayPixel, chB_grayPixel, and_self],
    fun hgray => ?_⟩
  · obtain ⟨hX, hY⟩ := gradients_congr (gm := gm) (f := src.picture m) (g := fun _ _ => p)
      (fun u v hu hv => congrArg (fun q => (gray gm q : Int)) (hp u v hu hv)) hw hh
    obtain ⟨hX0, hY0⟩ := gradients_const gm p x y
    rw [hX, hY, hX0, hY0, magnitude_zero (grayScale_pos gm)]
    rfl
  · obtain ⟨hX, hY⟩ := gradients_congr (gm := gm) (f := src.picture m) (g := src.picture m')
      (fun u v hu hv => congrArg Int.ofNat (hgray u v hu hv)) hw hh
    rw [hX, hY]

end Sys2Proof.Machine
end

section
/-! Laws of the quadrant traversal (44_quadrant_traversal.md R250 to R258): its levels and its work, inversion as XOR, and what
region blurs keep of a picture. -/

namespace Sys2Proof.Machine

/-! The traversal -/

/-- For 16-bit dimensions the last step of the bound on levels is never taken (R257). -/
theorem visit_traversalLevels {t : Nat} (ht : 1 ≤ t) {r : Region} (hw : r.w ≤ 2 ^ 16) (hh : r.h ≤ 2 ^ 16) :
    visit t traversalLevels r = visit t 16 r := visit_succ ht 16 hw hh

/-- The areas of the quadrants sum to the region's (R250). -/
theorem quadrants_area (r : Region) :
    r.topLeft.w * r.topLeft.h + r.topRight.w * r.topRight.h + r.bottomLeft.w * r.bottomLeft.h +
      r.bottomRight.w * r.bottomRight.h = r.w * r.h := by
  simpa only [List.length_append, length_pixels] using (quadrants_pixels_perm r).length_eq

/-- The regions of one level share no pixel, so each level adds at most the root's area (R257). -/
theorem visit_area_le (t n : Nat) (r : Region) :
    ((visit t n r).map fun q => q.w * q.h).sum ≤ (n + 1) * (r.w * r.h) := by
  induction n generalizing r with
  | zero => simp [visit]
  | succ n ih =>
    cases hb : r.isBase t with
    | true =>
      rw [visit_base t (n + 1) hb, List.map_singleton, List.sum_singleton]
      exact Nat.le_mul_of_pos_left _ (Nat.succ_pos _)
    | false =>
      have hquadrants := add_le_add (add_le_add (add_le_add (ih r.topLeft) (ih r.topRight)) (ih r.bottomLeft))
        (ih r.bottomRight)
      rw [← mul_add, ← mul_add, ← mul_add, quadrants_area] at hquadrants
      simp only [visit_split t n hb, List.map_cons, List.map_append, List.sum_cons, List.sum_append]
      rw [Nat.succ_mul, Nat.add_comm]
      exact Nat.add_le_add_right hquadrants _

/-! Inversion -/

/-- `255 − v = v XOR 0xFF` (R253). -/
theorem byte_sub_eq_xor (v : Byte) : 255 - v = v ^^^ 0xFF :=
  (BitVec.allOnes_sub_eq_not v).trans BitVec.xor_allOnes.symm

theorem invertPixel_eq_xor (p : Word) : invertPixel p = p ^^^ 0x00FFFFFF := by
  rw [invertPixel, byte_sub_eq_xor, byte_sub_eq_xor, byte_sub_eq_xor, ← argb_channels (p ^^^ 0x00FFFFFF)]
  simp [chA, chR, chG, chB, BitVec.extractLsb'_xor]

/-- Inversion is its own inverse (R256 (b)). -/
theorem xor_mask_cancel (p : Word) : (p ^^^ 0x00FFFFFF) ^^^ 0x00FFFFFF = p := by
  rw [BitVec.xor_assoc, BitVec.xor_self, BitVec.xor_zero]

/-! Region blurs of a picture -/

/-- A region blur keeps every pixel's alpha (R258 (a)). -/
theorem chA_picture_blurRegion (w h : Nat) (f : Picture) (r : Region) (x y : Nat) :
    chA (f.blurRegion w h r x y) = chA (f x y) := by
  rw [Picture.blurRegion]
  split
  · exact chA_meanPixel _ _
  · rfl

theorem chA_foldl_picture_blurRegion (w h : Nat) (rs : List Region) (f : Picture) (x y : Nat) :
    chA (rs.foldl (Picture.blurRegion w h) f x y) = chA (f x y) := by
  induction rs generalizing f with
  | nil => rfl
  | cons r rs ih => exact (ih _).trans (chA_picture_blurRegion w h f r x y)

/-- A picture that has one value at every coordinate of a w × h image. -/
def Picture.Uniform (w h : Nat) (p : Word) (f : Picture) : Prop := ∀ x y, x < w → y < h → f x y = p

/-- A region blur leaves a uniform picture as it is: every window is of equal pixels (R205 (b), R258 (c)). -/
theorem Picture.Uniform.blurRegion {w h : Nat} {p : Word} {f : Picture} (hf : f.Uniform w h p) (r : Region) :
    (f.blurRegion w h r).Uniform w h p := by
  intro x y hx hy
  rw [Picture.blurRegion]
  split
  · obtain ⟨-, hequal, -⟩ := boxAverageLaws w h x y 1 f hx hy
    refine hequal p fun q hq => ?_
    obtain ⟨hqw, hqh, -⟩ := (mem_window w h x y 1 q.1 q.2).1 hq
    exact hf q.1 q.2 hqw hqh
  · exact hf x y hx hy

theorem Picture.Uniform.foldl_blurRegion {w h : Nat} {p : Word} {f : Picture} (hf : f.Uniform w h p)
    (rs : List Region) : (rs.foldl (Picture.blurRegion w h) f).Uniform w h p := by
  induction rs generalizing f with
  | nil => exact hf
  | cons r rs ih => exact ih (hf.blurRegion r)

/-- The blur of the whole image is the box average at every pixel (R258 (b)). -/
theorem picture_blurRegion_whole (f : Picture) {w h x y : Nat} (hx : x < w) (hy : y < h) :
    f.blurRegion w h ⟨0, 0, w, h⟩ x y = f.boxAvg w h x y 1 :=
  if_pos (by simp [Region.contains, hx, hy])

end Sys2Proof.Machine
end

section
/-! Proofs of the statements about the quadrant traversal (44_quadrant_traversal.md). -/

namespace Sys2Proof.Machine

/-- Settles O30: the quadrants are disjoint and together hold the region's pixels. -/
theorem quadrantsPartitionRegion : Obligations.QuadrantsPartitionRegion :=
  quadrants_pixels_perm

/-- Settles O31: a quadrant of a 16-bit region has 16-bit dimensions, so the 16 levels that are left for it are as good as
17. -/
theorem traversalIsDepthFirstPreorder : Obligations.TraversalIsDepthFirstPreorder := by
  intro t r ht hw hh halfW halfH
  refine ⟨fun hb => visit_base t _ (decide_eq_true hb), fun hb => ?_⟩
  have hquadrant {q : Region} (hqw : q.w ≤ r.w) (hqh : q.h ≤ r.h) : visit t traversalLevels q = visit t 16 q :=
    visit_traversalLevels ht (hqw.trans hw.le) (hqh.trans hh.le)
  have hhalfW : halfW ≤ r.w := Nat.div_le_self r.w 2
  have hhalfH : halfH ≤ r.h := Nat.div_le_self r.h 2
  refine (visit_split t 16 (decide_eq_false hb)).trans ?_
  rw [← hquadrant (q := r.topLeft) hhalfW hhalfH, ← hquadrant (q := r.topRight) (Nat.sub_le _ _) hhalfH,
    ← hquadrant (q := r.bottomLeft) hhalfW (Nat.sub_le _ _),
    ← hquadrant (q := r.bottomRight) (Nat.sub_le _ _) (Nat.sub_le _ _)]
  rfl

/-- Settles O32: at most 17 levels, each of at most the root's area, and base regions that partition the root. -/
theorem traversalWorkIsBounded : Obligations.TraversalWorkIsBounded := by
  intro t r ht hw hh
  rw [visit_traversalLevels ht hw.le hh.le]
  exact ⟨visit_area_le t 16 r, baseRegions_pixels_perm ht 16 hw.le hh.le⟩

/-- Settles O33: the region blurs compound on the picture in DST, and the draws land in SCR. -/
theorem recursiveBlurCompounds : Obligations.RecursiveBlurCompounds := by
  intro s j param hj hr hal w h t
  exact ⟨(rblurEffect param j s).pmem, (rblurEffect param j s).draws, exec_busy _ hj hr,
    fun x y hx hy => pix_rblurEffect hal s hx hy,
    fun a hdst hscr => effectOf_pmem_outside (i := .rblur param) s (fun _ => hdst) fun _ => hscr⟩

/-- Settles O34: the laws of region blurs, on the compounded picture that RBLUR leaves in DST. -/
theorem recursiveBlurLaws : Obligations.RecursiveBlurLaws := by
  intro s u j param hj hr hal hexec w h t f
  have hresult {x y : Nat} (hx : x < w) (hy : y < h) : j.dstImage.pix u.pmem x y =
      (visit t traversalLevels ⟨0, 0, w, h⟩).foldl (Picture.blurRegion w h) f x y := by
    obtain ⟨m, d, hnext, hpix, -⟩ := recursiveBlurCompounds s j param hj hr hal
    cases hexec.symm.trans hnext
    exact hpix x y hx hy
  refine ⟨fun x y hx hy => ?_, fun hbase x y hx hy => ?_, fun p hp x y hx hy => ?_⟩
  · rw [hresult hx hy, chA_foldl_picture_blurRegion]
  · rw [hresult hx hy, visit_base t _ (decide_eq_true hbase)]
    exact picture_blurRegion_whole f hx hy
  · rw [hresult hx hy]
    exact Picture.Uniform.foldl_blurRegion hp _ x y hx hy

/-- Settles O35: channel by channel, and on a byte 255 − v does not wrap. -/
theorem invertPixelIsXor : Obligations.InvertPixelIsXor := by
  intro p
  have hsub (v : Byte) : (255 - v).toNat = 255 - v.toNat := BitVec.toNat_sub_of_le (by bv_omega)
  refine ⟨invertPixel_eq_xor p, chA_argb _ _ _ _, ?_, ?_, ?_⟩
  · rw [invertPixel, chR_argb, hsub]
  · rw [invertPixel, chG_argb, hsub]
  · rw [invertPixel, chB_argb, hsub]

/-- Settles O36: the base regions partition DST, and SRC is DST or apart from it, so each SRC pixel is read before it is
written. -/
theorem recursiveInvertInvertsEveryPixel : Obligations.RecursiveInvertInvertsEveryPixel := by
  intro s j param hj hr hal
  have dim (d : BitVec 16) : d.toNat ≤ 2 ^ traversalLevels := d.isLt.le.trans (by decide)
  refine ⟨(rinvertEffect param j s).pmem, exec_busy _ hj hr, fun x y hx hy => ?_,
    fun a hdst => effectOf_pmem_outside (i := .rinvert param) s (fun _ => hdst) fun ⟨p, hp⟩ => nomatch hp⟩
  rw [← invertPixel_eq_xor]
  exact pix_rinvertImage (aligned_of_not_partialOverlap hal) rfl rfl (dim j.w) (dim j.h) (invertThreshold_pos param)
    s.pmem hx hy

/-- Settles O37: both runs write every pixel's inverse over it, whatever the threshold, and inversion cancels itself. -/
theorem recursiveInvertTwiceRestores : Obligations.RecursiveInvertTwiceRestores := by
  intro s j p q hj hsame hr
  have hal (param : Nat) : aliasingViolation (.rinvert param) j = false := by
    simp [aliasingViolation, partialOverlap, hsame]
  have himage : j.srcImage = j.dstImage := by simp only [Latched.srcImage, Latched.dstImage, hsame]
  obtain ⟨m, hfirst, hm, hmOut⟩ := recursiveInvertInvertsEveryPixel s j p hj hr (hal p)
  obtain ⟨m', hsecond, hm', hmOut'⟩ := recursiveInvertInvertsEveryPixel
    { s with pmem := m, engine := some j, done := true } j q rfl hr (hal q)
  refine ⟨_, _, hfirst, hsecond, readByte_ext j.dstImage (fun x y hx hy => ?_) fun a ha => ?_⟩
  · rw [hm' x y hx hy, himage, hm x y hx hy, himage, xor_mask_cancel]
  · rw [hmOut' a ha, hmOut a ha]

end Sys2Proof.Machine
end

section
/-! Laws of the block quantizer (45_block_quantizer.md R280 to R282): the blocks as a partition of the image, the block that holds
a pixel as a rectangle clipped to the image, and what PIXELATE leaves in DST. -/

namespace Sys2Proof.Machine

/-! The partition -/

/-- The blocks of an image hold each of its pixels once (R280). -/
theorem blocks_pixels_perm {size : Nat} (hs : 1 ≤ size) (w h : Nat) :
    List.Perm ((blocks size w h).flatMap Region.pixels) (Region.pixels ⟨0, 0, w, h⟩) := by
  have hnodup : ((blocks size w h).flatMap Region.pixels).Nodup :=
    List.nodup_flatMap.2 ⟨fun b _ => pixels_nodup b, blocks_disjoint hs w h⟩
  refine (List.perm_ext_iff_of_nodup hnodup (pixels_nodup _)).2 ?_
  rintro ⟨x, y⟩
  rw [List.mem_flatMap]
  refine Iff.trans ?_ (mem_image_pixels ⟨0, w, h⟩ x y).symm
  constructor
  · rintro ⟨b, hb, hp⟩
    exact block_in_bounds hs hb (x, y) hp
  · rintro ⟨hx, hy⟩
    exact ⟨_, mem_own_block hs hx hy⟩

/-- A block has at least one row and one column, and at most S of each (R280). -/
theorem block_dims {size : Nat} (hs : 1 ≤ size) {w h : Nat} {b : Region} (hb : b ∈ blocks size w h) :
    1 ≤ b.w ∧ b.w ≤ size ∧ 1 ≤ b.h ∧ b.h ≤ size := by
  obtain ⟨bx, yb, hbx, -, hyb, -, rfl⟩ := (mem_blocks hs w h b).1 hb
  simp only [block]
  omega

/-! The block that holds a pixel -/

/-- The block that holds a pixel: it starts at the pixel's coordinates rounded down to multiples of S (R280). -/
def blockOf (size w h x y : Nat) : Region := block size w h (x / size * size) (y / size * size)

/-- The pixels of one block have that block in common. -/
theorem blockOf_eq_of_mem {size w h x y : Nat} {p : Nat × Nat} (hp : p ∈ (blockOf size w h x y).pixels) :
    blockOf size w h p.1 p.2 = blockOf size w h x y := by
  obtain ⟨hx, hy⟩ := start_of_mem_block (Nat.mul_mod_left _ _) (Nat.mul_mod_left _ _) ((mem_pixels _ _ _).1 hp)
  rw [blockOf, ← hx, ← hy, blockOf]

/-- A block's extent along one axis is its interval of S coordinates, clipped to the image. -/
theorem Ico_blockOf (size : Nat) {v n : Nat} (hv : v < n) :
    Finset.Ico (v / size * size) (v / size * size + min size (n - v / size * size)) =
      Finset.Ico (v / size * size) (min (v / size * size + size) n) := by
  have hstart : v / size * size ≤ v := Nat.div_mul_le_self v size
  congr 1
  omega

section
variable {w h x y : Nat} (size : Nat) (hx : x < w) (hy : y < h)
include hx hy

/-- A sum over the block of a pixel, row by row over the clipped intervals. -/
theorem sum_blockOf (f : Nat → Nat → Nat) : ((blockOf size w h x y).pixels.map fun p => f p.1 p.2).sum =
    ∑ ny ∈ Finset.Ico (y / size * size) (min (y / size * size + size) h),
      ∑ nx ∈ Finset.Ico (x / size * size) (min (x / size * size + size) w), f nx ny := by
  rw [sum_pixels, ← Ico_blockOf size hx, ← Ico_blockOf size hy]
  rfl

/-- The number of pixels of a block, from the clipped intervals. -/
theorem length_blockOf : (blockOf size w h x y).pixels.length =
    (Finset.Ico (y / size * size) (min (y / size * size + size) h)).card *
      (Finset.Ico (x / size * size) (min (x / size * size + size) w)).card := by
  rw [length_pixels, ← Ico_blockOf size hx, ← Ico_blockOf size hy, Nat.card_Ico, Nat.card_Ico, Nat.add_sub_cancel_left,
    Nat.add_sub_cancel_left, Nat.mul_comm]
  rfl

end

/-! The block average -/

/-- Red, green and blue of a block average are the truncated means over the block (R281). -/
theorem channel_blockAvg_blockOf {ch : Word → Byte} (hch : ch = chR ∨ ch = chG ∨ ch = chB) (src : Image) (m : Memory)
    {w h x y : Nat} (size : Nat) (hx : x < w) (hy : y < h) :
    (ch (blockAvg src m (blockOf size w h x y))).toNat =
      (∑ ny ∈ Finset.Ico (y / size * size) (min (y / size * size + size) h),
        ∑ nx ∈ Finset.Ico (x / size * size) (min (x / size * size + size) w), (ch (src.picture m nx ny)).toNat) /
      ((Finset.Ico (y / size * size) (min (y / size * size + size) h)).card *
        (Finset.Ico (x / size * size) (min (x / size * size + size) w)).card) := by
  rw [blockAvg, channel_meanPixel hch, channelSum, List.map_map, List.length_map, length_blockOf size hx hy,
    ← sum_blockOf size hx hy fun nx ny => (ch (src.picture m nx ny)).toNat]
  rfl

/-- The average of a block of equal opaque pixels is that pixel (R283). -/
theorem blockAvg_of_forall_eq {src : Image} {m : Memory} {b : Region} (hpos : 0 < b.pixels.length) {p : Word}
    (hopaque : chA p = 255) (h : ∀ q ∈ b.pixels, src.pix m q.1 q.2 = p) : blockAvg src m b = p := by
  rw [blockAvg, ← hopaque]
  exact meanPixel_of_forall_eq (by rwa [List.length_map]) (List.forall_mem_map.2 h)

/-! PIXELATE -/

/-- PIXELATE leaves in each pixel of DST the average of its block in SRC as it was, in place too (R282). -/
theorem pix_pixelateEffect {param : Nat} {j : Latched} (hal : aliasingViolation (.pixelate param) j = false) (s : State)
    {x y : Nat} (hx : x < j.w.toNat) (hy : y < j.h.toNat) :
    j.dstImage.pix (pixelateEffect param j s).pmem x y =
      blockAvg j.srcImage s.pmem (blockOf (blockSize param) j.w.toNat j.h.toNat x y) :=
  pix_pixelateImage (aligned_of_not_partialOverlap hal) (blockSize_pos param) rfl rfl s.pmem hx hy

/-- PIXELATE leaves every byte outside DST as it was (R55). -/
theorem pixelateEffect_outside (param : Nat) (j : Latched) (s : State) {a : Nat} (ha : ¬ j.dstImage.hasByte a) :
    readByte (pixelateEffect param j s).pmem a = readByte s.pmem a :=
  effectOf_pmem_outside (i := .pixelate param) s (fun _ => ha) fun ⟨_, hp⟩ => nomatch hp

/-- PIXELATE on what PIXELATE of the same block size has left gives it again: every block is uniform and opaque (R283 (c)). -/
theorem pix_pixelateEffect_again {param : Nat} {j k : Latched} (hsrc : k.src = j.dst) (hw : k.w = j.w) (hh : k.h = j.h)
    (halj : aliasingViolation (.pixelate param) j = false) (halk : aliasingViolation (.pixelate param) k = false)
    {s t : State} (ht : t.pmem = (pixelateEffect param j s).pmem) {x y : Nat} (hx : x < j.w.toNat) (hy : y < j.h.toNat) :
    k.dstImage.pix (pixelateEffect param k t).pmem x y = j.dstImage.pix t.pmem x y := by
  have himage : k.srcImage = j.dstImage := by simp only [Latched.srcImage, Latched.dstImage, hsrc, hw, hh]
  have hfirst {u v : Nat} (hu : u < j.w.toNat) (hv : v < j.h.toNat) : j.dstImage.pix t.pmem u v =
      blockAvg j.srcImage s.pmem (blockOf (blockSize param) j.w.toNat j.h.toNat u v) :=
    ht ▸ pix_pixelateEffect halj s hu hv
  obtain ⟨hblock, hown⟩ := mem_own_block (blockSize_pos param) hx hy
  rw [pix_pixelateEffect halk t (hw ▸ hx) (hh ▸ hy), himage, hw, hh]
  refine blockAvg_of_forall_eq (List.length_pos_of_mem hown) ?_ fun q hq => ?_
  · rw [hfirst hx hy]
    exact chA_meanPixel _ _
  · obtain ⟨hqw, hqh⟩ := block_in_bounds (blockSize_pos param) hblock q hq
    rw [hfirst hqw hqh, hfirst hx hy, blockOf_eq_of_mem hq]

end Sys2Proof.Machine
end

section
/-! Proofs of the statements about the block quantizer (45_block_quantizer.md). -/

namespace Sys2Proof.Machine

/-- Settles O27: every pixel lies in the block that starts at its coordinates rounded down, and in no other. -/
theorem blocksPartitionImage : Obligations.BlocksPartitionImage :=
  fun _ w h hs => ⟨blocks_pixels_perm hs w h, fun _ hb => block_dims hs hb⟩

/-- Settles O28: SRC is DST or apart from it, so a block is averaged before any of its pixels is written, and the average's
channels are the truncated means over the clipped block. -/
theorem pixelateWritesBlockMeans : Obligations.PixelateWritesBlockMeans := by
  intro s j param hj hr hal f w h size
  refine ⟨(pixelateEffect param j s).pmem, exec_busy _ hj hr, fun x y hx hy => ?_,
    fun a ha => pixelateEffect_outside param j s ha⟩
  intro bx yb xs ys
  rw [pix_pixelateEffect hal s hx hy]
  exact ⟨chA_meanPixel _ _, fun ch hch => channel_blockAvg_blockOf hch j.srcImage s.pmem (blockSize param) hx hy⟩

/-- Settles O29: the first run leaves every block of its DST uniform and opaque, and the average of such a block is its one
pixel. -/
theorem pixelateIsIdempotent : Obligations.PixelateIsIdempotent := by
  intro s j k param hj hsrc hw hh hrj halj hrk halk
  have hagain {x y : Nat} (hx : x < j.w.toNat) (hy : y < j.h.toNat) :=
    pix_pixelateEffect_again hsrc hw hh halj halk
      (t := { complete (pixelateEffect param j s) with engine := some k }) rfl hx hy
  refine ⟨_, _, exec_busy _ hj hrj, exec_busy _ rfl hrk, fun x y hx hy => hagain hx hy, fun hdst => ?_⟩
  have hsame : k.dstImage = j.dstImage := by simp only [Latched.dstImage, hdst, hw, hh]
  rw [hsame] at hagain
  exact readByte_ext j.dstImage (fun x y hx hy => hagain hx hy)
    fun a ha => pixelateEffect_outside param k _ (hsame ▸ ha)

end Sys2Proof.Machine
end

section
/-! Laws of a completion and a host write in either order (60_exceptions.md R312): what the engine's turn leaves unchanged, what
a CMD write in IDLE ends in, and runs of the two events. -/

namespace Sys2Proof.Machine

/-- The turn of a busy engine that meets the invariant completes, and changes only the engine, DONE, pixel memory, the result
registers and the counter of draws (R55, R165). -/
theorem engineTurn_completion_frame {s : State} (h : Inv s) (hb : s.busy = true) :
    ∃ t, engineTurn s = .next t ∧ t = { s with
      engine := none
      done := true
      pmem := t.pmem
      pkOut := t.pkOut
      upA := t.upA
      upR := t.upR
      upG := t.upG
      upB := t.upB
      draws := t.draws } := by
  obtain ⟨j, hj⟩ := engine_of_busy hb
  refine ⟨_, engineTurn_completes h hj, ?_⟩
  rw [effectOf_frame]
  rfl

/-- An illegal word written to CMD in IDLE is rejected (R107, R163). -/
theorem step_cmdWrite_illegal {s : State} {c : Word} {rest : List Event} {e : ErrCode} (hi : s.engine = none)
    (hev : s.events = .host (.csrWrite 0x004 c) :: rest) (hd : decode c = .error e) :
    step s = .next (reject e { s with events := rest, cmd := c, response := some ⟨false, none⟩ }) := by
  rw [step_cmdWrite hi hev, issueWord_error hd]

/-- A command written to CMD in IDLE that fails validation is rejected with the check's code (R161, R163). -/
theorem step_cmdWrite_rejects {s : State} {c : Word} {rest : List Event} {i : Instr} {e : ErrCode} (hi : s.engine = none)
    (hev : s.events = .host (.csrWrite 0x004 c) :: rest) (hd : decode c = .ok i)
    (hv : validate s.addrW.words i (latch i s) = some e) :
    step s = .next (reject e { s with events := rest, cmd := c, response := some ⟨false, none⟩ }) := by
  rw [step_cmdWrite hi hev, issueWord_ok hd]
  exact exec_rejects hi hv

/-- A command written to CMD in IDLE that passes validation is accepted (R161, R162). -/
theorem step_cmdWrite_accepts {s : State} {c : Word} {rest : List Event} {i : Instr} (hi : s.engine = none)
    (hev : s.events = .host (.csrWrite 0x004 c) :: rest) (hd : decode c = .ok i)
    (hv : validate s.addrW.words i (latch i s) = none) :
    step s = .next (accept i { s with events := rest, cmd := c, response := some ⟨false, none⟩ }) := by
  rw [step_cmdWrite hi hev, issueWord_ok hd]
  exact exec_accepts hi hv

theorem runSteps_two {s t u : State} (hst : step s = .next t) (htu : step t = .next u) : runSteps 2 s = .next u :=
  (runSteps_succ hst 1).trans (runSteps_succ htu 0)

/-- A CMD write ordered before the completion is dropped and sets ACCERR; the running command completes (R31, R312). -/
theorem runSteps_cmdWrite_completion {s : State} (h : Inv s) (hb : s.busy = true) (c : Word) :
    ∃ t, runSteps 2 { s with events := [.host (.csrWrite 0x004 c), .engine] } = .next t ∧
      t.cmd = s.cmd ∧ t.accErr = true ∧ t.err = s.err ∧ t.ecode = s.ecode ∧ t.busy = false ∧ t.done = true := by
  have hdrop := step_csrWrite_refused (r := .cmd) rfl
    (s := { s with events := [.host (.csrWrite 0x004 c), .engine] }) hb rfl
  obtain ⟨t, ht, hframe⟩ := engineTurn_completion_frame
    (s := { s with events := [], accErr := true, response := some ⟨false, none⟩ }) (inv_congr h _ _ _ _ _ _) hb
  refine ⟨t, runSteps_two hdrop ht, ?_⟩
  rw [hframe]
  exact ⟨rfl, rfl, rfl, rfl, rfl, rfl⟩

/-- A CMD write ordered after the completion finds the engine IDLE and the operand registers as they were, so it is issued
(R26, R312). -/
theorem runSteps_completion_cmdWrite {s : State} (h : Inv s) (hb : s.busy = true) (c : Word) :
    ∃ t, runSteps 2 { s with events := [.engine, .host (.csrWrite 0x004 c)] } = .next t ∧
      t.cmd = c ∧ t.accErr = s.accErr ∧ t.done = true ∧
      (∀ e, decode c = .error e → t.err = true ∧ t.ecode = errorNumber e ∧ t.busy = false) ∧
      (∀ i, decode c = .ok i →
        (∀ e, validate s.addrW.words i (latch i s) = some e → t.err = true ∧ t.ecode = errorNumber e ∧ t.busy = false) ∧
        (validate s.addrW.words i (latch i s) = none →
          t.engine = some (latch i s) ∧ t.err = s.err ∧ t.ecode = s.ecode)) := by
  obtain ⟨t, ht, hframe⟩ := engineTurn_completion_frame
    (s := { s with events := [.host (.csrWrite 0x004 c)] }) (inv_congr h _ _ _ _ _ _) hb
  have hrun {u : State} (hu : step t = .next u) :
      runSteps 2 { s with events := [.engine, .host (.csrWrite 0x004 c)] } = .next u := runSteps_two ht hu
  have hi : t.engine = none := by rw [hframe]
  have hev : t.events = [.host (.csrWrite 0x004 c)] := by rw [hframe]
  have hacc : t.accErr = s.accErr := by rw [hframe]
  have hdone : t.done = true := by rw [hframe]
  have hidle : t.busy = false := idle_of_engine hi
  cases hd : decode c with
  | error e =>
    refine ⟨_, hrun (step_cmdWrite_illegal hi hev hd), rfl, hacc, rfl, fun e' he => ?_, nofun⟩
    cases he
    exact ⟨rfl, rfl, hidle⟩
  | ok i =>
    have hval : validate t.addrW.words i (latch i t) = validate s.addrW.words i (latch i s) := by rw [hframe]; rfl
    cases hv : validate s.addrW.words i (latch i s) with
    | some e =>
      refine ⟨_, hrun (step_cmdWrite_rejects hi hev hd (hval.trans hv)), rfl, hacc, rfl, nofun, fun i' hok => ?_⟩
      cases hok
      refine ⟨fun e' he => ?_, fun hnone => nomatch hv.symm.trans hnone⟩
      cases hv.symm.trans he
      exact ⟨rfl, rfl, hidle⟩
    | none =>
      refine ⟨_, hrun (step_cmdWrite_accepts hi hev hd (hval.trans hv)), rfl, hacc, hdone, nofun, fun i' hok => ?_⟩
      cases hok
      refine ⟨fun e' he => (nomatch hv.symm.trans he), fun _ => ?_⟩
      rw [hframe]
      exact ⟨rfl, rfl, rfl⟩

/-- A write of 1 to STATUS.DONE ordered before the completion does not clear the DONE of that completion (R27, R312). -/
theorem runSteps_statusWrite_completion {s : State} (h : Inv s) (hb : s.busy = true) (v : Word) :
    ∃ t, runSteps 2 { s with events := [.host (.csrWrite 0x008 v), .engine] } = .next t ∧
      t.busy = false ∧ t.done = true := by
  have hstore := step_csrWrite_store (r := .status) (v := v) (by decide) (.inl rfl)
    (s := { s with events := [.host (.csrWrite 0x008 v), .engine] }) rfl
  have hinv : Inv { s with events := [], response := some ⟨false, none⟩ } := inv_congr h _ _ _ _ _ _
  obtain ⟨t, ht, hidle, hdone⟩ := engineTurn_done (inv_writeStatus hinv v) hb
  exact ⟨t, runSteps_two hstore ht, hidle, hdone⟩

/-- A write of 1 to STATUS.DONE ordered after the completion clears DONE (R27, R312). -/
theorem runSteps_completion_statusWrite {s : State} (h : Inv s) (hb : s.busy = true) {v : Word} (hv : v.getLsbD 1 = true) :
    ∃ t, runSteps 2 { s with events := [.engine, .host (.csrWrite 0x008 v)] } = .next t ∧
      t.busy = false ∧ t.done = false := by
  obtain ⟨t, ht, hframe⟩ := engineTurn_completion_frame
    (s := { s with events := [.host (.csrWrite 0x008 v)] }) (inv_congr h _ _ _ _ _ _) hb
  have hev : t.events = [.host (.csrWrite 0x008 v)] := by rw [hframe]
  have hi : t.engine = none := by rw [hframe]
  have hstore := step_csrWrite_store (r := .status) (by decide) (.inl rfl) hev
  exact ⟨_, runSteps_two ht hstore, idle_of_engine hi, by simp [storeCsr, writeStatus, hv]⟩

end Sys2Proof.Machine
end

section
/-! Proofs of the statements about errors and the interrupt (60_exceptions.md). -/

namespace Sys2Proof.Machine

/-- Settles O59, one run for each order: a busy engine drops a CMD write, an IDLE one issues it, and DONE is as the later of
the completion and the W1C leaves it. -/
theorem completionAndCmdWriteInBothOrders : Obligations.CompletionAndCmdWriteInBothOrders := by
  intro s c v h hb
  refine ⟨runSteps_cmdWrite_completion h hb c, ?_, fun hv =>
    ⟨runSteps_statusWrite_completion h hb v, runSteps_completion_statusWrite h hb hv⟩⟩
  obtain ⟨t, hrun, hcmd, hacc, hdone, hillegal, hissue⟩ := runSteps_completion_cmdWrite h hb c
  refine ⟨t, hrun, hcmd, hacc, hdone, fun e hd => ?_, fun i hd => ?_⟩
  · obtain ⟨herr, hcode, hidle⟩ := hillegal e hd
    refine ⟨herr, ?_, hidle⟩
    obtain rfl | rfl := decode_error hd <;> exact hcode
  · obtain ⟨hrejected, haccepted⟩ := hissue i hd
    exact ⟨hrejected .range, hrejected .overlap, haccepted⟩

/-- Settles O48: each event changes IE or DONE by its own law, and irq is their conjunction. -/
theorem interruptIsLevelOfDone : Obligations.InterruptIsLevelOfDone := by
  refine ⟨fun _ => rfl, fun s hie => ?_, fun s e hie => ?_, fun s v rest => ⟨fun hev => ?_, fun hev => ?_, fun hev => ?_⟩⟩
  · rw [irq, complete_ie, complete_done, hie, Bool.and_self]
  · rw [irq, reject_ie, reject_done, hie, Bool.and_self]
  · exact ⟨_, step_csrWrite_store (r := .ctrl) (by decide) (.inl rfl) hev, rfl⟩
  · exact ⟨_, step_csrWrite_store (r := .status) (by decide) (.inl rfl) hev, (Bool.and_assoc ..).symm⟩
  · exact ⟨_, step_cons hev, rfl⟩

end Sys2Proof.Machine
end

section
/-! Laws of reset and power-on (70_reset_and_hazards.md R340 to R344), and of a host transaction beside a running command
(R350, R356). -/

namespace Sys2Proof.Machine

/-! Power-on -/

/-- STATUS reads 0 after power-on: its flags, BUSY and ECODE are 0 (R27, R340). -/
theorem statusWord_powerOn (a : AddrW) : statusWord (State.powerOn a) = 0 := by
  simp [statusWord, State.powerOn]

/-- Every register but ID reads 0 after power-on (R340). -/
theorem readCsr_powerOn (a : AddrW) {r : Csr} (hr : r ≠ .id) : readCsr (State.powerOn a) r = 0 := by
  cases r with
  | id => exact absurd rfl hr
  | status => exact statusWord_powerOn a
  | _ => rfl

/-- After power-on W and H are 0 and the bases are addresses of PMEM, so no check stops a command (R169, R344). -/
theorem exec_powerOn (a : AddrW) (i : Instr) :
    exec i (State.powerOn a) = .next (accept i (State.powerOn a)) := by
  cases hi : isImageCommand i with
  | false => exact exec_idle_of_no_image hi rfl
  | true =>
    have harea : (latch i (State.powerOn a)).w.toNat * (latch i (State.powerOn a)).h.toNat = 0 := rfl
    have hbase : (0 : Word).toNat < a.words := words_pos a
    exact exec_accepts rfl (validate_none.2
      ⟨inRange_of_zero_area hi harea hbase hbase hbase, not_aliasingViolation_of_zero_area hi harea⟩)

/-! Reset -/

/-- Reset gives every register its power-on value (R340). -/
theorem readCsr_resetMachine (s : State) (r : Csr) : readCsr (resetMachine s) r = readCsr (State.powerOn s.addrW) r := by
  cases r <;> rfl

/-- The buffers a command writes: DST for an image command, and SCR for RBLUR (R55). -/
theorem mem_writtenBuffers {i : Instr} {j : Latched} {b : Image} : b ∈ writtenBuffers i j ↔
    (isImageCommand i = true ∧ b = j.dstImage) ∨ ((∃ p, i = .rblur p) ∧ b = j.scrImage) := by
  cases i <;> simp [writtenBuffers, isImageCommand]

theorem abandonedBuffers_idle {s : State} (h : s.engine = none) : abandonedBuffers s = [] := by
  rw [abandonedBuffers, h]

theorem abandonedBuffers_busy {s : State} {j : Latched} (h : s.engine = some j) :
    abandonedBuffers s = writtenBuffers j.instr j := by
  rw [abandonedBuffers, h]

/-- Reset changes no byte outside the buffers that the abandoned command writes (R342, R343). -/
theorem resetMachine_pmem_outside {s : State} {a : Nat} (h : ∀ b ∈ abandonedBuffers s, ¬ b.hasByte a) :
    readByte (resetMachine s).pmem a = readByte s.pmem a :=
  scrambleBuffers_outside _ _ _ h

/-! A host transaction beside a running command -/

/-- Outside RBLUR's SCR, what an operation leaves in pixel memory depends on the latched operands and pixel memory alone: not
on the other registers, nor on the draws, which RBLUR writes to SCR only (R171, U2). -/
theorem readByte_effectOf_congr {i : Instr} {j : Latched} {s s' : State} (hm : s.pmem = s'.pmem) {a : Nat}
    (ha : (∃ p, i = .rblur p) → ¬ j.scrImage.hasByte a) :
    readByte (effectOf i j s).pmem a = readByte (effectOf i j s').pmem a := by
  cases i with
  | pack | unpack => rw [effectOf_pmem_of_no_image _ j s rfl, effectOf_pmem_of_no_image _ j s' rfl, hm]
  | rblur p =>
    have hscr : ¬ j.scrImage.hasByte a := ha ⟨p, rfl⟩
    simp only [effectOf, rblurEffect, scramble_outside j.scrImage _ _ hscr, hm]
  | blur5 => simp only [effectOf, blur5Effect, hm]
  | blur3 => simp only [effectOf, blur3Effect, hm]
  | sobel gm bz => simp only [effectOf, sobelEffect, hm]
  | pixelate p => simp only [effectOf, pixelateEffect, hm]
  | rinvert p => simp only [effectOf, rinvertEffect, hm]

/-- With PACK's channels in range, what an operation leaves in PK_OUT depends on the latched operands and PK_OUT alone
(R153). -/
theorem effectOf_pkOut_congr {i : Instr} {j : Latched} {s s' : State} (hout : s.pkOut = s'.pkOut)
    (hc : i = .pack → channelsInRange j = true) : (effectOf i j s).pkOut = (effectOf i j s').pkOut := by
  by_cases hi : i = .pack
  · subst hi
    rw [effectOf, packEffect_inRange (hc rfl), packEffect_inRange (hc rfl)]
  · rw [effectOf_pkOut i j s hi, effectOf_pkOut i j s' hi, hout]

/-- What an operation leaves in UP_A to UP_B depends on the latched operands and those registers alone (R154). -/
theorem effectOf_up_congr (i : Instr) (j : Latched) {s s' : State} (hA : s.upA = s'.upA) (hR : s.upR = s'.upR)
    (hG : s.upG = s'.upG) (hB : s.upB = s'.upB) :
    (effectOf i j s).upA = (effectOf i j s').upA ∧ (effectOf i j s).upR = (effectOf i j s').upR ∧
      (effectOf i j s).upG = (effectOf i j s').upG ∧ (effectOf i j s).upB = (effectOf i j s').upB := by
  by_cases hi : i = .unpack
  · subst hi
    exact ⟨rfl, rfl, rfl, rfl⟩
  · obtain ⟨kA, kR, kG, kB⟩ := effectOf_up i j s hi
    obtain ⟨kA', kR', kG', kB'⟩ := effectOf_up i j s' hi
    rw [kA, kR, kG, kB, kA', kR', kG', kB']
    exact ⟨hA, hR, hG, hB⟩

/-- The turn of a busy engine that answers a next state has completed its command (R164, R165). -/
theorem engineTurn_next_busy {s t : State} {j : Latched} (hj : s.engine = some j) (h : engineTurn s = .next t) :
    inRange s.addrW.words j.instr j = true ∧ t = complete (effectOf j.instr j s) := by
  rw [engineTurn_busy hj] at h
  obtain ⟨hidle, -⟩ | ⟨j', hj', hr, ht⟩ := exec_next h
  · cases hj.symm.trans hidle
  · cases hj.symm.trans hj'
    exact ⟨hr, ht⟩

end Sys2Proof.Machine
end

section
/-! Proofs of the statements about reset and hazards (70_reset_and_hazards.md). -/

namespace Sys2Proof.Machine

/-- Settles O50: a reset draws only the buffers that the abandoned command writes, and in IDLE there are none. -/
theorem resetKeepsUnwrittenMemory : Obligations.ResetKeepsUnwrittenMemory := by
  intro s rest hev
  refine ⟨_, step_cons hev, rfl, fun hidle a => ?_, fun j hj a hdst hscr => ?_⟩
  · refine resetMachine_pmem_outside (s := { s with events := rest }) ?_
    simp [abandonedBuffers_idle (s := { s with events := rest }) hidle]
  · refine resetMachine_pmem_outside (s := { s with events := rest }) fun b hb => ?_
    rw [abandonedBuffers_busy (s := { s with events := rest }) hj] at hb
    obtain ⟨hi, rfl⟩ | ⟨hi, rfl⟩ := mem_writtenBuffers.1 hb
    · exact hdst hi
    · exact hscr hi

/-- Settles O56: the transaction leaves the latched command and pixel memory, on which alone the completion depends where
nothing is drawn. -/
theorem hostCannotDisturbRunningCommand : Obligations.HostCannotDisturbRunningCommand := by
  intro s x j hj
  obtain ⟨s1, hs1, hframe⟩ := transact_busy (busy_of_engine hj) x
  have hengine : s1.engine = s.engine := by rw [hframe]
  have hpmem : s1.pmem = s.pmem := by rw [hframe]
  have hdraws : s1.draws = s.draws := by rw [hframe]
  have haddrW : s1.addrW = s.addrW := by rw [hframe]
  have hpkOut : s1.pkOut = s.pkOut := by rw [hframe]
  have hj1 : s1.engine = some j := hengine.trans hj
  refine ⟨s1, hs1, hengine, hpmem, hdraws, hframe, fun t ht => ?_⟩
  obtain ⟨hr, rfl⟩ := engineTurn_next_busy hj ht
  obtain ⟨hA, hR, hG, hB⟩ := effectOf_up_congr j.instr j (s := s1) (s' := s)
    (by rw [hframe]) (by rw [hframe]) (by rw [hframe]) (by rw [hframe])
  exact ⟨_, (engineTurn_busy hj1).trans (exec_busy _ hj1 (haddrW ▸ hr)), fun a ha => readByte_effectOf_congr hpmem ha,
    effectOf_pkOut_congr hpkOut, hA, hR, hG, hB, rfl, rfl⟩

/-- Settles O49: each register reads as after power-on. -/
theorem resetClearsEveryRegister : Obligations.ResetClearsEveryRegister := by
  intro s rest hev
  exact ⟨_, step_cons hev, rfl, fun r hr => (readCsr_resetMachine _ r).trans (readCsr_powerOn _ hr), rfl, rfl, rfl, rfl⟩

/-- Settles O51: no byte of pixel memory is written yet, and a command of zero area is accepted. -/
theorem powerOnState : Obligations.PowerOnState :=
  ⟨rfl, fun a => ⟨fun _ hr => readCsr_powerOn a hr, rfl, rfl, rfl, rfl, readWord_nil, exec_powerOn a⟩⟩

/-- Settles O52: pixel memory has no cell, the bases are 0, and no command is latched. -/
theorem powerOnSatisfiesInvariant : Obligations.PowerOnSatisfiesInvariant := fun a =>
  { pmem_wf := rfl
    pmem_bounded := by simp [State.powerOn]
    src_bounded := words_pos a
    dst_bounded := words_pos a
    scr_bounded := words_pos a
    ecode_legal := Nat.zero_le 4
    err_iff_ecode := iff_of_false Bool.false_ne_true (not_not_intro rfl)
    latched_ok := latched_ok_of_idle rfl }

end Sys2Proof.Machine
end
